-- ==== Sys2Proof/Word.lean ====
section
/-! DEFINITION. The word types of the machine (spec/00_scope.md R5, R7; spec/30_encoding.md R92): the manual treats registers,
addresses while they are computed and instruction fields as unsigned bit vectors. -/

namespace Sys2Proof

/-- A 4-bit field: a register index, a key code, a sprite height (30_encoding.md R92, fields x, y, z). -/
abbrev Nibble := BitVec 4

/-- An 8-bit register, memory cell or immediate `kk`. -/
abbrev Byte := BitVec 8

/-- The 12-bit address field `nnn`. -/
abbrev Addr := BitVec 12

/-- A 16-bit register, stack slot or instruction word. -/
abbrev Word := BitVec 16

/-- `zext_16` of 00_scope.md R7: widen with zeros to 16 bits. -/
abbrev zext16 {n : Nat} (a : BitVec n) : Word := a.setWidth 16

end Sys2Proof
end

