-- ==== Sys2Proof/Config.lean ====
section
/-! DEFINITION. What an implementation fixes (spec/00_scope.md R6) and the values the spec leaves free
(spec/93_implementation_defined.md U4, U6). The free values have no body: nothing can evaluate them. -/

namespace Sys2Proof

/-- Bytes 80 to 239 of the parameter `FONT`, by address: the spec gives them no value and no default (10_state.md R33, U4, D31).
Log 9. Safe: no claim can rest on a byte of them. -/
opaque Config.largeFont : Nat → Byte

/-- The byte the injected randomness source returns at draw n, when the source is free (44_keyboard_timers_random.md R232, U6, D29).
Log 10. Safe: any byte is possible. -/
opaque Config.rnd : Nat → Byte

/-- The count of due cycles of a clock whose PERIOD is 0, as a function of the elapsed nanoseconds: 60_exceptions.md R273 divides
by PERIOD and R272 makes PERIOD 0 for a rate above 1000000000 Hz. Log 13. Safe: any count is possible. -/
opaque Config.dueAtZeroPeriod : Nat → Nat

/-- The parameters of 00_scope.md R6 that the instruction rules read; fixed for the whole life of one machine. -/
structure Params where
  /-- `SHIFT_USES_VY` (U2, D5): SHR and SHL read Vy when true, Vx when false. -/
  shiftUsesVy : Bool
  /-- `VF_WRITE_LAST` (U1, D6): the flag write follows the result write when true. -/
  vfWriteLast : Bool
  /-- `FREEZE_WORD` (U3, D2): the encoding of FREEZE, or none. -/
  freezeWord : Option Word
  deriving DecidableEq, Repr

end Sys2Proof
end

