-- ==== Sys2Proof/Machine/Params.lean ====
section
/-! DEFINITION. The default values the spec chose for the parameters of 00_scope.md R6. -/

namespace Sys2Proof

/-- The defaults of 00_scope.md R6: shift Vx in place (D5, log 5), write the flag last (D6, log 6), no FREEZE word (D2, log 7). -/
def Params.default : Params := { shiftUsesVy := false, vfWriteLast := true, freezeWord := none }

end Sys2Proof
end

