-- ==== Sys2Proof/Syntax.lean ====
section
/-! DEFINITION. The instructions: one constructor per row of spec/opcode_table.json, 45 in all (spec/30_encoding.md R100), each with
the fields its format gives it (R92, R93). -/

namespace Sys2Proof

/-- The complete instruction list of 30_encoding.md R100, in the table's order. -/
inductive Instr where
  /-- SCD, `00Cz` (R133) -/
  | scd (z : Nibble)
  /-- CLS, `00E0` (R130) -/
  | cls
  /-- RET, `00EE` (R151) -/
  | ret
  /-- SCR, `00FB` (R134) -/
  | scr
  /-- SCL, `00FC` (R135) -/
  | scl
  /-- EXIT, `00FD` (R152) -/
  | exit
  /-- LOW, `00FE` (R131) -/
  | low
  /-- HIGH, `00FF` (R132) -/
  | high
  /-- FREEZE, the word `FREEZE_WORD` (R153, R107) -/
  | freeze
  /-- JP, `1nnn` (R154) -/
  | jp (nnn : Addr)
  /-- CALL, `2nnn` (R155) -/
  | call (nnn : Addr)
  /-- SE_imm, `3xkk` (R156) -/
  | seImm (x : Nibble) (kk : Byte)
  /-- SNE_imm, `4xkk` (R157) -/
  | sneImm (x : Nibble) (kk : Byte)
  /-- SE_reg, `5xy0` (R158) -/
  | seReg (x y : Nibble)
  /-- LD_imm, `6xkk` (R172) -/
  | ldImm (x : Nibble) (kk : Byte)
  /-- ADD_imm, `7xkk` (R173) -/
  | addImm (x : Nibble) (kk : Byte)
  /-- LD_reg, `8xy0` (R174) -/
  | ldReg (x y : Nibble)
  /-- OR, `8xy1` (R175) -/
  | or (x y : Nibble)
  /-- AND, `8xy2` (R176) -/
  | and (x y : Nibble)
  /-- XOR, `8xy3` (R177) -/
  | xor (x y : Nibble)
  /-- ADD_reg, `8xy4` (R178) -/
  | addReg (x y : Nibble)
  /-- SUB, `8xy5` (R179) -/
  | sub (x y : Nibble)
  /-- SHR, `8xy6` (R180) -/
  | shr (x y : Nibble)
  /-- SUBN, `8xy7` (R181) -/
  | subn (x y : Nibble)
  /-- SHL, `8xyE` (R184) -/
  | shl (x y : Nibble)
  /-- SNE_reg, `9xy0` (R159) -/
  | sneReg (x y : Nibble)
  /-- LD_I, `Annn` (R200) -/
  | ldI (nnn : Addr)
  /-- JP_V0, `Bnnn` (R160) -/
  | jpV0 (nnn : Addr)
  /-- RND, `Cxkk` (R231) -/
  | rnd (x : Nibble) (kk : Byte)
  /-- DRW, `Dxyz` with z in 1..15 (R136) -/
  | drw (x y z : Nibble)
  /-- DRW16, `Dxy0` (R137) -/
  | drw16 (x y : Nibble)
  /-- SKP, `Ex9E` (R220) -/
  | skp (x : Nibble)
  /-- SKNP, `ExA1` (R221) -/
  | sknp (x : Nibble)
  /-- LD_Vx_DT, `Fx07` (R226) -/
  | ldVxDt (x : Nibble)
  /-- LD_Vx_K, `Fx0A` (R224) -/
  | ldVxK (x : Nibble)
  /-- LD_DT, `Fx15` (R227) -/
  | ldDt (x : Nibble)
  /-- LD_ST, `Fx18` (R228) -/
  | ldSt (x : Nibble)
  /-- ADD_I, `Fx1E` (R201) -/
  | addI (x : Nibble)
  /-- LD_F, `Fx29` (R202) -/
  | ldF (x : Nibble)
  /-- LD_HF, `Fx30` (R203) -/
  | ldHf (x : Nibble)
  /-- LD_B, `Fx33` (R204) -/
  | ldB (x : Nibble)
  /-- LD_mem_Vx, `Fx55` (R205) -/
  | ldMemVx (x : Nibble)
  /-- LD_Vx_mem, `Fx65` (R206) -/
  | ldVxMem (x : Nibble)
  /-- LD_R, `Fx75` (R208) -/
  | ldR (x : Nibble)
  /-- LD_Vx_R, `Fx85` (R209) -/
  | ldVxR (x : Nibble)
  deriving DecidableEq, Repr

end Sys2Proof
end

