-- ==== Sys2Proof/WellFormed.lean ====
section
/-! DEFINITION. Which terms of `Instr` stand for a word of the machine (spec/30_encoding.md R100, R103, R107). The widths of the
fields are in their types; two checks are left: DRW's height is not 0, and FREEZE exists only when its word is set. -/

namespace Sys2Proof

/-- The words of family 0 that 30_encoding.md R101 assigns apart from the sixteen `00Cz`. -/
def assignedZeroWords : List Nat := [0x0E0, 0x0EE, 0x0FB, 0x0FC, 0x0FD, 0x0FE, 0x0FF]

/-- The type of the parameter `FREEZE_WORD` (00_scope.md R6): high nibble 0 and none of the 23 assigned words of family 0. -/
def legalFreezeWord (f : Word) : Bool :=
  decide (f.toNat < 0x1000) && decide (f.toNat / 16 ≠ 0x0C) && !assignedZeroWords.contains f.toNat

/-- A parameter set the machine may be built with: `FREEZE_WORD` is none or a legal word (00_scope.md R6). -/
def Params.legal (p : Params) : Bool := p.freezeWord.all legalFreezeWord

/-- An instruction that some word encodes, when `FREEZE_WORD` is `fw`. -/
def WellFormed (fw : Option Word) (i : Instr) : Bool :=
  match i with
  | .scd _ => true
  | .cls => true
  | .ret => true
  | .scr => true
  | .scl => true
  | .exit => true
  | .low => true
  | .high => true
  | .freeze => fw.any legalFreezeWord
  | .jp _ => true
  | .call _ => true
  | .seImm _ _ => true
  | .sneImm _ _ => true
  | .seReg _ _ => true
  | .ldImm _ _ => true
  | .addImm _ _ => true
  | .ldReg _ _ => true
  | .or _ _ => true
  | .and _ _ => true
  | .xor _ _ => true
  | .addReg _ _ => true
  | .sub _ _ => true
  | .shr _ _ => true
  | .subn _ _ => true
  | .shl _ _ => true
  | .sneReg _ _ => true
  | .ldI _ => true
  | .jpV0 _ => true
  | .rnd _ _ => true
  | .drw _ _ z => z != 0
  | .drw16 _ _ => true
  | .skp _ => true
  | .sknp _ => true
  | .ldVxDt _ => true
  | .ldVxK _ => true
  | .ldDt _ => true
  | .ldSt _ => true
  | .addI _ => true
  | .ldF _ => true
  | .ldHf _ => true
  | .ldB _ => true
  | .ldMemVx _ => true
  | .ldVxMem _ => true
  | .ldR _ => true
  | .ldVxR _ => true

end Sys2Proof
end

