-- ==== Sys2Proof/Decode.lean ====
section
/-! DEFINITION. The decoder, total on every word and every list of bytes (spec/30_encoding.md R92, R95, R101 to R107), and the encoder,
both written from the table of R100. The numbers the document does not give rest on decision D1 (log 16). -/

namespace Sys2Proof

/-- Why a list of bytes is no instruction. `invalid` is the invalid-instruction condition of 30_encoding.md R106; `truncated` only says
that fewer than two bytes were offered (the machine never does: its fetch reads two bytes or faults). -/
inductive DecodeError where
  | truncated
  | invalid (op : Word)
  deriving DecidableEq, Repr

/-- `w`, bits 15:12 (R92). -/
def fieldW (op : Word) : Nibble := op.extractLsb' 12 4
/-- `x`, bits 11:8 (R92). -/
def fieldX (op : Word) : Nibble := op.extractLsb' 8 4
/-- `y`, bits 7:4 (R92). -/
def fieldY (op : Word) : Nibble := op.extractLsb' 4 4
/-- `z`, bits 3:0 (R92). -/
def fieldZ (op : Word) : Nibble := op.extractLsb' 0 4
/-- `kk`, bits 7:0 (R92). -/
def fieldKK (op : Word) : Byte := op.extractLsb' 0 8
/-- `nnn`, bits 11:0 (R92). -/
def fieldNNN (op : Word) : Addr := op.extractLsb' 0 12
/-- `xy`, bits 11:4 (R92). -/
def fieldXY (op : Word) : Byte := op.extractLsb' 4 8

/-- Family 0 (R101): first `xy = 0x0C`, then the fixed values of `nnn`, then `FREEZE_WORD`. -/
def decodeZero (fw : Option Word) (op : Word) : Except DecodeError Instr :=
  if fieldXY op = 0x0C#8 then .ok (.scd (fieldZ op))
  else if fieldNNN op = 0x0E0#12 then .ok .cls
  else if fieldNNN op = 0x0EE#12 then .ok .ret
  else if fieldNNN op = 0x0FB#12 then .ok .scr
  else if fieldNNN op = 0x0FC#12 then .ok .scl
  else if fieldNNN op = 0x0FD#12 then .ok .exit
  else if fieldNNN op = 0x0FE#12 then .ok .low
  else if fieldNNN op = 0x0FF#12 then .ok .high
  else if fw = some op then .ok .freeze
  else .error (.invalid op)

/-- Family 8 (R102): refined by `z`. -/
def decodeAlu (op : Word) : Except DecodeError Instr :=
  match (fieldZ op).toNat with
  | 0x0 => .ok (.ldReg (fieldX op) (fieldY op))
  | 0x1 => .ok (.or (fieldX op) (fieldY op))
  | 0x2 => .ok (.and (fieldX op) (fieldY op))
  | 0x3 => .ok (.xor (fieldX op) (fieldY op))
  | 0x4 => .ok (.addReg (fieldX op) (fieldY op))
  | 0x5 => .ok (.sub (fieldX op) (fieldY op))
  | 0x6 => .ok (.shr (fieldX op) (fieldY op))
  | 0x7 => .ok (.subn (fieldX op) (fieldY op))
  | 0xE => .ok (.shl (fieldX op) (fieldY op))
  | _ => .error (.invalid op)

/-- Families 5 and 9 (R102): `z` must be 0. -/
def decodeRegSkip (op : Word) (i : Instr) : Except DecodeError Instr :=
  if fieldZ op = 0#4 then .ok i else .error (.invalid op)

/-- Family D (R103): height 0 is the 16x16 draw; no word of the family is invalid. -/
def decodeDraw (op : Word) : Except DecodeError Instr :=
  if fieldZ op = 0#4 then .ok (.drw16 (fieldX op) (fieldY op))
  else .ok (.drw (fieldX op) (fieldY op) (fieldZ op))

/-- Family E (R104): refined by `kk`. -/
def decodeKeySkip (op : Word) : Except DecodeError Instr :=
  match (fieldKK op).toNat with
  | 0x9E => .ok (.skp (fieldX op))
  | 0xA1 => .ok (.sknp (fieldX op))
  | _ => .error (.invalid op)

/-- Family F (R104): refined by `kk`. -/
def decodeMisc (op : Word) : Except DecodeError Instr :=
  match (fieldKK op).toNat with
  | 0x07 => .ok (.ldVxDt (fieldX op))
  | 0x0A => .ok (.ldVxK (fieldX op))
  | 0x15 => .ok (.ldDt (fieldX op))
  | 0x18 => .ok (.ldSt (fieldX op))
  | 0x1E => .ok (.addI (fieldX op))
  | 0x29 => .ok (.ldF (fieldX op))
  | 0x30 => .ok (.ldHf (fieldX op))
  | 0x33 => .ok (.ldB (fieldX op))
  | 0x55 => .ok (.ldMemVx (fieldX op))
  | 0x65 => .ok (.ldVxMem (fieldX op))
  | 0x75 => .ok (.ldR (fieldX op))
  | 0x85 => .ok (.ldVxR (fieldX op))
  | _ => .error (.invalid op)

/-- Decode one word (R95): a pure function of the high nibble, refined by the low byte or low nibble. Reads no state; `fw` is the
parameter `FREEZE_WORD`. -/
def decodeWord (fw : Option Word) (op : Word) : Except DecodeError Instr :=
  match (fieldW op).toNat with
  | 0x0 => decodeZero fw op
  | 0x1 => .ok (.jp (fieldNNN op))
  | 0x2 => .ok (.call (fieldNNN op))
  | 0x3 => .ok (.seImm (fieldX op) (fieldKK op))
  | 0x4 => .ok (.sneImm (fieldX op) (fieldKK op))
  | 0x5 => decodeRegSkip op (.seReg (fieldX op) (fieldY op))
  | 0x6 => .ok (.ldImm (fieldX op) (fieldKK op))
  | 0x7 => .ok (.addImm (fieldX op) (fieldKK op))
  | 0x8 => decodeAlu op
  | 0x9 => decodeRegSkip op (.sneReg (fieldX op) (fieldY op))
  | 0xA => .ok (.ldI (fieldNNN op))
  | 0xB => .ok (.jpV0 (fieldNNN op))
  | 0xC => .ok (.rnd (fieldX op) (fieldKK op))
  | 0xD => decodeDraw op
  | 0xE => decodeKeySkip op
  | 0xF => decodeMisc op
  | _ => .error (.invalid op)

/-- The instruction word two fetched bytes make: the byte at the lower address is the high byte (20_memory.md R61). -/
def wordOfBytes (first second : Byte) : Word := first ++ second

/-- The two bytes of an instruction word as memory holds them, lowest address first (20_memory.md R61). -/
def bytesOfWord (op : Word) : List Byte := [op.extractLsb' 8 8, op.extractLsb' 0 8]

/-- Decode the instruction at the front of a list of bytes and give back the rest; every instruction is two bytes (R90, R108). -/
def decode (fw : Option Word) (bytes : List Byte) : Except DecodeError (Instr × List Byte) :=
  match bytes with
  | first :: second :: rest => (decodeWord fw (wordOfBytes first second)).map fun i => (i, rest)
  | _ => .error .truncated

/-- The bytes of a word numbered as spec/opcode_table.json numbers its bits: the low `nbits` bits of `w`, every higher bit 0. -/
def tableBytes (nbits w : Nat) : List Byte := bytesOfWord (BitVec.ofNat 16 (w % 2 ^ nbits))

/-- What the decoder reads from a table word (default parameters). -/
def decodeTableWord (nbits w : Nat) : Option Instr :=
  match decode Params.default.freezeWord (tableBytes nbits w) with
  | .ok (i, _) => some i
  | .error _ => none

/-- The word of a well-formed instruction, from the table of 30_encoding.md R100. FREEZE's word is the parameter; the word of a
FREEZE that does not exist is of no use and written as 0. -/
def encode (fw : Option Word) (i : Instr) : Word :=
  match i with
  | .scd z => 0x00C#12 ++ z
  | .cls => 0x00E0
  | .ret => 0x00EE
  | .scr => 0x00FB
  | .scl => 0x00FC
  | .exit => 0x00FD
  | .low => 0x00FE
  | .high => 0x00FF
  | .freeze => fw.getD 0
  | .jp nnn => 0x1#4 ++ nnn
  | .call nnn => 0x2#4 ++ nnn
  | .seImm x kk => 0x3#4 ++ x ++ kk
  | .sneImm x kk => 0x4#4 ++ x ++ kk
  | .seReg x y => 0x5#4 ++ x ++ y ++ 0x0#4
  | .ldImm x kk => 0x6#4 ++ x ++ kk
  | .addImm x kk => 0x7#4 ++ x ++ kk
  | .ldReg x y => 0x8#4 ++ x ++ y ++ 0x0#4
  | .or x y => 0x8#4 ++ x ++ y ++ 0x1#4
  | .and x y => 0x8#4 ++ x ++ y ++ 0x2#4
  | .xor x y => 0x8#4 ++ x ++ y ++ 0x3#4
  | .addReg x y => 0x8#4 ++ x ++ y ++ 0x4#4
  | .sub x y => 0x8#4 ++ x ++ y ++ 0x5#4
  | .shr x y => 0x8#4 ++ x ++ y ++ 0x6#4
  | .subn x y => 0x8#4 ++ x ++ y ++ 0x7#4
  | .shl x y => 0x8#4 ++ x ++ y ++ 0xE#4
  | .sneReg x y => 0x9#4 ++ x ++ y ++ 0x0#4
  | .ldI nnn => 0xA#4 ++ nnn
  | .jpV0 nnn => 0xB#4 ++ nnn
  | .rnd x kk => 0xC#4 ++ x ++ kk
  | .drw x y z => 0xD#4 ++ x ++ y ++ z
  | .drw16 x y => 0xD#4 ++ x ++ y ++ 0x0#4
  | .skp x => 0xE#4 ++ x ++ 0x9E#8
  | .sknp x => 0xE#4 ++ x ++ 0xA1#8
  | .ldVxDt x => 0xF#4 ++ x ++ 0x07#8
  | .ldVxK x => 0xF#4 ++ x ++ 0x0A#8
  | .ldDt x => 0xF#4 ++ x ++ 0x15#8
  | .ldSt x => 0xF#4 ++ x ++ 0x18#8
  | .addI x => 0xF#4 ++ x ++ 0x1E#8
  | .ldF x => 0xF#4 ++ x ++ 0x29#8
  | .ldHf x => 0xF#4 ++ x ++ 0x30#8
  | .ldB x => 0xF#4 ++ x ++ 0x33#8
  | .ldMemVx x => 0xF#4 ++ x ++ 0x55#8
  | .ldVxMem x => 0xF#4 ++ x ++ 0x65#8
  | .ldR x => 0xF#4 ++ x ++ 0x75#8
  | .ldVxR x => 0xF#4 ++ x ++ 0x85#8

end Sys2Proof
end

