-- ==== Sys2Proof/Machine/Display.lean ====
section
/-! DEFINITION. The display engine (spec/40_display_engine.md R120 to R126, R128; spec/10_state.md R40): the pixel store and its
primitives. Rows top first, columns left first. -/

namespace Sys2Proof.Machine

/-- `HIRES` and `PIX` (10_state.md R40): H rows of W pixels each, true for lit. -/
structure Display where
  hires : Bool
  rows : List (List Bool)
  deriving DecidableEq, Repr

/-- `W` of a mode (R40). -/
def widthOf (hires : Bool) : Nat := if hires then 128 else 64
/-- `H` of a mode (R40). -/
def heightOf (hires : Bool) : Nat := if hires then 64 else 32

/-- `W` in the current mode. -/
def Display.width (d : Display) : Nat := widthOf d.hires
/-- `H` in the current mode. -/
def Display.height (d : Display) : Nat := heightOf d.hires

/-- The grid of a mode with every pixel 0. -/
def Display.blank (hires : Bool) : Display :=
  { hires := hires, rows := List.replicate (heightOf hires) (List.replicate (widthOf hires) false) }

/-- `PIX[r][c]`; a place outside the grid is no pixel and reads false. -/
def Display.pix (d : Display) (r c : Nat) : Bool := (d.rows.getD r []).getD c false

/-- `PIX[r][c] <- b`. -/
def Display.setPix (d : Display) (r c : Nat) (b : Bool) : Display :=
  { d with rows := d.rows.modify r fun row => row.set c b }

/-- The grid has exactly `W*H` pixels (R40). -/
def Display.wf (d : Display) : Bool :=
  decide (d.rows.length = d.height) && d.rows.all fun row => decide (row.length = d.width)

/-- `clear()` (R120). -/
def Display.clear (d : Display) : Display := Display.blank d.hires

/-- `set_hires(b)` (R121): nothing when the mode is already the requested one, else the new grid, all clear. -/
def Display.setHires (d : Display) (b : Bool) : Display := if d.hires = b then d else Display.blank b

/-- The horizontal scroll distance: 4 in hi-res, 2 in low-res (R124). -/
def Display.scrollStep (d : Display) : Nat := if d.hires then 4 else 2

/-- `scroll_left()` (R124). -/
def Display.scrollLeft (d : Display) : Display :=
  { d with rows := d.rows.map fun row => row.drop d.scrollStep ++ List.replicate d.scrollStep false }

/-- `scroll_right()` (R125). -/
def Display.scrollRight (d : Display) : Display :=
  { d with rows := d.rows.map fun row => List.replicate d.scrollStep false ++ row.take (d.width - d.scrollStep) }

/-- The distance of `scroll_down(n)` (R126): n in hi-res, n / 2 in low-res. -/
def Display.downStep (d : Display) (n : Nat) : Nat := if d.hires then n else n / 2

/-- `scroll_down(n)` (R126). -/
def Display.scrollDown (d : Display) (n : Nat) : Display :=
  { d with rows := List.replicate (d.downStep n) (List.replicate d.width false) ++ d.rows.take (d.height - d.downStep n) }

/-- One pixel of a blit (R122): XOR the sprite bit in, and report whether the pixel went from 1 to 0. -/
def Display.blitBit (d : Display) (r c : Nat) (bit : Bool) : Display × Bool :=
  (d.setPix r c (d.pix r c ^^ bit), d.pix r c && bit)

/-- The bits `j`, `j+1`, … of one sprite row (R122), most significant bit first, at columns `(x0 + j) mod W`. -/
def Display.blitBits (d : Display) (r x0 j : Nat) (bits : List Bool) : Display × Bool :=
  match bits with
  | [] => (d, false)
  | bit :: rest =>
    let one := d.blitBit r ((x0 + j) % d.width) bit
    let more := Display.blitBits one.1 r x0 (j + 1) rest
    (more.1, one.2 || more.2)

/-- The eight bits of a sprite byte, most significant first (R122). -/
def spriteBits (b : Byte) : List Bool := (List.range 8).map fun j => b.getLsbD (7 - j)

/-- `draw(x0, y0, bytes)` (R122): byte k goes to row `(y0 + k) mod H`; true if any pixel went from 1 to 0. -/
def Display.draw (d : Display) (x0 y0 : Nat) (bytes : List Byte) : Display × Bool :=
  match bytes with
  | [] => (d, false)
  | b :: rest =>
    let one := d.blitBits (y0 % d.height) x0 0 (spriteBits b)
    let more := Display.draw one.1 x0 (y0 + 1) rest
    (more.1, one.2 || more.2)

/-- `schip_draw(x0, y0, bytes)` (R123): row pairs (left, right); the right byte only in hi-res; every draw is made. -/
def Display.schipDraw (d : Display) (x0 y0 : Nat) (bytes : List Byte) : Display × Bool :=
  match bytes with
  | left :: right :: rest =>
    let one := d.draw x0 y0 [left]
    let two := if d.hires then one.1.draw (x0 + 8) y0 [right] else (one.1, false)
    let more := Display.schipDraw two.1 x0 (y0 + 1) rest
    (more.1, one.2 || two.2 || more.2)
  | _ => (d, false)

end Sys2Proof.Machine
end

