-- ==== Sys2Proof/Machine/Memory.lean ====
section
/-! DEFINITION. Memory: 4096 bytes in one space (spec/20_memory.md R60, R66; spec/10_state.md R32, R33), held as a list of
(address, byte) pairs in one canonical form: addresses strictly rising, no entry equal to what an unlisted address reads as. -/

namespace Sys2Proof.Machine

/-- The default of bytes 0 to 79 of the parameter `FONT`, glyph d at `5d` (10_state.md R33's table, from general knowledge, D31).
Log 8. -/
def smallFont : List Byte :=
  [0xF0, 0x90, 0x90, 0x90, 0xF0, 0x20, 0x60, 0x20, 0x20, 0x70] ++
  [0xF0, 0x10, 0xF0, 0x80, 0xF0, 0xF0, 0x10, 0xF0, 0x10, 0xF0] ++
  [0x90, 0x90, 0xF0, 0x10, 0x10, 0xF0, 0x80, 0xF0, 0x10, 0xF0] ++
  [0xF0, 0x80, 0xF0, 0x90, 0xF0, 0xF0, 0x10, 0x20, 0x40, 0x40] ++
  [0xF0, 0x90, 0xF0, 0x90, 0xF0, 0xF0, 0x90, 0xF0, 0x10, 0xF0] ++
  [0xF0, 0x90, 0xF0, 0x90, 0x90, 0xE0, 0x90, 0xE0, 0x90, 0xE0] ++
  [0xF0, 0x80, 0x80, 0x80, 0xF0, 0xE0, 0x90, 0x90, 0x90, 0xE0] ++
  [0xF0, 0x80, 0xF0, 0x80, 0xF0, 0xF0, 0x80, 0xF0, 0x80, 0x80]

/-- What an address that is not listed reads as: the contents after a cold reset with an empty ROM (10_state.md R50, 20_memory.md R66):
the font at 0 to 239 (bytes 80 to 239 a free value, log 9), zero elsewhere. -/
def unlistedByte (a : Nat) : Byte :=
  if a < 80 then smallFont.getD a 0
  else if a < 240 then Config.largeFont a
  else 0

/-- Memory as data. -/
abbrev Memory := List Host.Cell

/-- `MEM[a]` (10_state.md R32). -/
def Memory.read (m : Memory) (a : Nat) : Byte :=
  match m with
  | [] => unlistedByte a
  | (k, b) :: rest => if k = a then b else Memory.read rest a

/-- `MEM[a] <- b`, keeping the canonical form: writing what an unlisted address reads as removes the entry. -/
def Memory.write (m : Memory) (a : Nat) (b : Byte) : Memory :=
  match m with
  | [] => if b = unlistedByte a then [] else [(a, b)]
  | (k, c) :: rest =>
    if a < k then
      if b = unlistedByte a then (k, c) :: rest else (a, b) :: (k, c) :: rest
    else if a = k then
      if b = unlistedByte a then rest else (a, b) :: rest
    else (k, c) :: Memory.write rest a b

/-- Write bytes at ascending addresses from `a` (20_memory.md R62). -/
def Memory.writeBytes (m : Memory) (a : Nat) (bytes : List Byte) : Memory :=
  match bytes with
  | [] => m
  | b :: rest => Memory.writeBytes (m.write a b) (a + 1) rest

/-- The canonical form: every address exists (below 4096), addresses strictly rise, no entry equals the unlisted value. -/
def Memory.wf (m : Memory) : Bool :=
  match m with
  | [] => true
  | (k, b) :: rest =>
    decide (k < 4096) && decide (b ≠ unlistedByte k) && rest.all (fun cell => decide (k < cell.1)) && Memory.wf rest

end Sys2Proof.Machine
end

