-- ==== Sys2Proof/Machine/State.lean ====
section
/-! DEFINITION. The state of the machine (spec/10_state.md) as plain data, why a step can stop, and the state after a cold reset
(spec/10_state.md R50, spec/70_reset_and_hazards.md R290). -/

namespace Sys2Proof.Machine

/-- The six faults of the hardware (60_exceptions.md R240). They are recorded in `halt` (R241); they are no stop of the model's own. -/
inductive CoreFault where
  /-- code 1, raised by decode -/
  | invalidInstruction (op : Word)
  /-- code 2, raised by CALL -/
  | stackOverflow
  /-- code 3, raised by RET -/
  | stackUnderflow
  /-- code 4, raised by LD R and LD Vx R; the field x -/
  | flagIndexOutOfRange (x : Nibble)
  /-- code 5, raised by fetch and by the memory instructions; the first address of the access -/
  | memoryOutOfRange (addr : Nat)
  /-- code 6, raised by SKP and SKNP; the register value -/
  | keyIndexOutOfRange (k : Byte)
  deriving DecidableEq, Repr

/-- The two host signals (60_exceptions.md R250). -/
inductive HostSignal where
  | freeze
  | exit
  deriving DecidableEq, Repr

/-- `WAIT`, the key-wait state (10_state.md R35). -/
inductive Wait where
  | noWait
  | waiting
  | keyPressed (k : Nibble)
  deriving DecidableEq, Repr

/-- A clock, or rate converter (60_exceptions.md R272): `PERIOD` and `LAST`, in nanoseconds. -/
structure Clock where
  period : Nat
  last : Nat
  deriving DecidableEq, Repr

/-- The injected randomness source `RND` (44_keyboard_timers_random.md R232): one the spec leaves free, one that returns a constant
(which must be supported), or one that returns a given list and is free after it. Log 10. -/
inductive RndSource where
  | free
  | constant (b : Byte)
  | script (bytes : List Byte)
  deriving DecidableEq, Repr

/-- What the outside world can do to the machine (60_exceptions.md R260, 00_scope.md R12). Log 11. -/
inductive HostEvent where
  /-- let the engine make its next move: the next one of a `cycle()` or `cycle_60Hz()` call in progress, else
  `execute_next_instruction()` -/
  | advance
  /-- one 60 Hz decrement on its own (R270) -/
  | tick
  /-- `toggle_key(key, pressed)` (10_state.md R38) -/
  | toggleKey (key : Nat) (pressed : Bool)
  /-- `reset()`, the warm reset (70_reset_and_hazards.md R295) -/
  | reset
  /-- set the CPU clock rate (R276) -/
  | setClock (hz : Nat)
  /-- increment the CPU clock rate (R276); `d` is an integer, and a negative one lowers the rate: the model's choice, log 21 -/
  | incrementClock (d : Int)
  /-- `cycle()` at `now` nanoseconds since construction (R274) -/
  | cycle (now : Nat)
  /-- `cycle_60Hz()` (R275) -/
  | cycle60Hz
  deriving DecidableEq, Repr

/-- The part of a `cycle()` or `cycle_60Hz()` call still to be done (R274, R275). Log 12. -/
inductive Batch where
  /-- no call in progress -/
  | idle
  /-- `cycle()` at `now`: `left` ticks are still to come, then `due(CPU, now)` is asked -/
  | cycleTicks (now left : Nat)
  /-- `left` steps are still to come -/
  | steps (left : Nat)
  deriving DecidableEq, Repr

/-- The two mutually exclusive driving modes (60_exceptions.md R268, R274, R275). -/
inductive Driving where
  | selfTimed
  | externallyTimed
  deriving DecidableEq, Repr

/-- The machine. The first block is the spec's own state (10_state.md R31, R42, R43); the second is the report of the last step and the
parameters; the third is the model's own (log 10, 11, 12). -/
structure State where
  /-- `V[0]` to `V[15]`; `VF` is `V[15]` (R20, R21) -/
  v : Vector Byte 16
  /-- `I` (R23) -/
  i : Word
  /-- `PC` (R24) -/
  pc : Word
  /-- `SP`, the stack depth 0 to 16 (R27) -/
  sp : Fin 17
  /-- `STACK[0]` to `STACK[15]` (R27) -/
  stack : Vector Word 16
  /-- `FB[0]` to `FB[7]` (R29) -/
  fb : Vector Byte 8
  /-- `DT` (R30) -/
  dt : Byte
  /-- `ST` (R30) -/
  st : Byte
  /-- `MEM` (R32) -/
  mem : Memory
  /-- `KEY[0]` to `KEY[15]` (R34) -/
  keys : Vector Bool 16
  /-- `WAIT` (R35) -/
  wait : Wait
  /-- `HIRES` and `PIX` (R40) -/
  display : Display
  /-- `HALT` (R43) -/
  halt : Option CoreFault
  /-- `CLOCK_HZ` (R42) -/
  clockHz : Nat
  /-- `RATIO` (R42) -/
  ratio : Nat
  /-- `CPU_PERIOD` and `CPU_LAST` (R42) -/
  cpu : Clock
  /-- `TMR_PERIOD` and `TMR_LAST` (R42) -/
  tmr : Clock
  /-- the host signal the last step gave, if it gave one (00_scope.md R11, 60_exceptions.md R250); log 2 -/
  signal : Option HostSignal
  /-- the parameters of 00_scope.md R6, which no step changes; log 4 -/
  params : Params
  /-- the injected randomness source (R232); log 10 -/
  rndSource : RndSource
  /-- how many random bytes have been drawn; log 10 -/
  draws : Nat
  /-- what the outside world does next, first event first; log 11 -/
  inputs : List HostEvent
  /-- the host call in progress; log 12 -/
  batch : Batch
  /-- the driving mode the host has used; log 12 -/
  driving : Option Driving
  /-- the latest elapsed time the host has supplied to `cycle()`; log 12 -/
  hostNow : Nat
  deriving DecidableEq, Repr

/-- Why a step stops the model. -/
inductive Fault where
  /-- Raised by `executeNext` when `HALT` is set: a halted engine has no enabled step until a reset (10_state.md R43,
  60_exceptions.md R241, U14). Safe: no claim can be proved of a run that goes on. Log 3. -/
  | halted (f : CoreFault)
  deriving DecidableEq, Repr

/-- Why a step is refused: a host duty of 60_exceptions.md R268 is violated ("A violated duty is refused by the model"). No instruction
raises any of them. All are safe. -/
inductive Refusal where
  /-- Raised by an arm of `exec` whose instruction has no meaning yet; no arm does. Safe. -/
  | notModelled (mnemonic : String)
  /-- Raised by `toggleKey` for a key above 15 (10_state.md R38, U9). Safe. -/
  | keyAbove15 (key : Nat)
  /-- Raised by `setClock` and `incrementClock` for a rate below 1 Hz (R276, U20). Safe. -/
  | clockRateBelow1
  /-- Raised by `callCycle` when `now` is smaller than the time of an earlier call (R268) or than a clock's LAST (R273, U19). Safe. -/
  | clockBackwards
  /-- Raised by `callCycle` and `callCycle60Hz` in a halted machine: the host must stop calling after a fault (R268). Safe. -/
  | calledAfterFault (f : CoreFault)
  /-- Raised by `callCycle` and `callCycle60Hz` when the other driving mode has been used (R268, U21). Safe. -/
  | mixedDriving
  /-- Raised by `callCycle` and `callCycle60Hz` when such a call is still in progress: the engine is single-threaded (R258, R262). Safe. -/
  | callInProgress
  /-- Raised by `construct` for a ROM of more than 3584 bytes (70_reset_and_hazards.md R290, U10). Safe. -/
  | romTooLong
  /-- Raised by `construct` for a `FONT` that is not 240 bytes (00_scope.md R6). Safe. -/
  | illegalFont
  /-- Raised by `construct` for a `FREEZE_WORD` that is not of the parameter's type (00_scope.md R6). Safe. -/
  | illegalFreezeWord
  deriving DecidableEq, Repr

/-- The state right after a cold reset with an empty ROM and the default parameters (10_state.md R50, 70_reset_and_hazards.md R290).
A program is loaded from outside by `construct` (log 14). -/
def State.reset : State where
  v := Vector.replicate 16 0
  i := 0
  pc := 512
  sp := 0
  stack := Vector.replicate 16 0
  fb := Vector.replicate 8 0
  dt := 0
  st := 0
  mem := []
  keys := Vector.replicate 16 false
  wait := .noWait
  display := Display.blank false
  halt := none
  clockHz := 500
  ratio := 8
  cpu := { period := 2000000, last := 0 }
  tmr := { period := 16666666, last := 0 }
  signal := none
  params := Params.default
  rndSource := .free
  draws := 0
  inputs := []
  batch := .idle
  driving := none
  hostNow := 0

end Sys2Proof.Machine
end

