-- ==== Sys2Proof/Machine/Ops.lean ====
section
/-! DEFINITION. The named operations over registers, stack and memory (spec/00_scope.md R9, spec/10_state.md R20, R21, R28), taking a
fault (spec/60_exceptions.md R241) and giving a host signal (R250), the instruction fetch (spec/30_encoding.md R90), the random byte
(spec/44_keyboard_timers_random.md R232). -/

namespace Sys2Proof.Machine

/-- The outcome of a meaning or a step. -/
abbrev Result := Host.Outcome State Fault Refusal

/-- `V[x]` (10_state.md R20). -/
def State.reg (s : State) (x : Nibble) : Byte := s.v[x.toNat]'x.isLt

/-- `V[x] <- b`. -/
def State.setReg (s : State) (x : Nibble) (b : Byte) : State := { s with v := s.v.set x.toNat b x.isLt }

/-- `VF`, the flag register accessor over the storage of register 15 (10_state.md R21). -/
def State.vf (s : State) : Byte := s.reg 0xF

/-- `VF <- b` (10_state.md R21). -/
def State.setVf (s : State) (b : Byte) : State := s.setReg 0xF b

/-- `I <- a`. -/
def State.setI (s : State) (a : Word) : State := { s with i := a }

/-- `PC <- target` (00_scope.md R9). -/
def State.jump (s : State) (target : Word) : State := { s with pc := target }

/-- `next`: `PC <- trunc_16(PC + 2)` (00_scope.md R9). -/
def State.next (s : State) : State := s.jump (s.pc + 2)

/-- `skip`: `PC <- trunc_16(PC + 4)` (00_scope.md R9). -/
def State.skip (s : State) : State := s.jump (s.pc + 4)

/-- `if condition then skip else next` (41_control_flow.md R156 to R159). -/
def State.skipIf (s : State) (condition : Bool) : State := if condition then s.skip else s.next

/-- `raise f` (00_scope.md R9, 60_exceptions.md R241), the one way an instruction or the fetch takes a fault: no cell changes, `PC`
included, but `HALT`, which records the fault. There is no vector and no handler. Log 1. -/
def raise (f : CoreFault) (s : State) : Result := .next { s with halt := some f }

/-- `signal h` (00_scope.md R9, 60_exceptions.md R250): no cell of 10_state.md changes, `PC` included; the outcome is the signal.
Log 2. -/
def signalHost (h : HostSignal) (s : State) : Result := .next { s with signal := some h }

/-- Ends an instruction that may fault: it either fully applies its effects or raises the fault on the state before it
(00_scope.md R9, 60_exceptions.md R241). -/
def finish (s : State) (effect : Except CoreFault State) : Result :=
  match effect with
  | .ok t => .next t
  | .error f => raise f s

/-- The codes of the faults (60_exceptions.md R240, D18). -/
def CoreFault.code (f : CoreFault) : Nat :=
  match f with
  | .invalidInstruction _ => 1
  | .stackOverflow => 2
  | .stackUnderflow => 3
  | .flagIndexOutOfRange _ => 4
  | .memoryOutOfRange _ => 5
  | .keyIndexOutOfRange _ => 6

/-- The codes of the host signals (60_exceptions.md R250, D18). -/
def HostSignal.code (h : HostSignal) : Nat :=
  match h with
  | .freeze => 1
  | .exit => 2

/-- `MemRead(addr, n)` (00_scope.md R9, 20_memory.md R64): n bytes, lowest address first, or MemoryOutOfRange(addr); addresses are
unbounded integers, never wrapped. -/
def memRead (m : Memory) (addr n : Nat) : Except CoreFault (List Byte) :=
  if addr + n - 1 > 4095 then .error (.memoryOutOfRange addr)
  else .ok ((List.range n).map fun k => m.read (addr + k))

/-- `MemWrite(addr, n, bytes)` with n the number of bytes (00_scope.md R9, 20_memory.md R64). -/
def memWrite (m : Memory) (addr : Nat) (bytes : List Byte) : Except CoreFault Memory :=
  if addr + bytes.length - 1 > 4095 then .error (.memoryOutOfRange addr)
  else .ok (m.writeBytes addr bytes)

/-- `push(a)` (10_state.md R28). -/
def State.push (s : State) (a : Word) : Except CoreFault State :=
  if h : s.sp.val < 16 then
    .ok { s with stack := s.stack.set s.sp.val a h, sp := ⟨s.sp.val + 1, by omega⟩ }
  else .error .stackOverflow

/-- `pop()` (10_state.md R28): the popped slot keeps its value. -/
def State.pop (s : State) : Except CoreFault (Word × State) :=
  if h : 0 < s.sp.val then
    .ok (s.stack[s.sp.val - 1]'(by omega), { s with sp := ⟨s.sp.val - 1, by omega⟩ })
  else .error .stackUnderflow

/-- The instruction word at `PC`, big-endian (30_encoding.md R90, R91, 20_memory.md R61). -/
def fetch (s : State) : Except CoreFault Word :=
  (memRead s.mem s.pc.toNat 2).map fun bytes => wordOfBytes (bytes.getD 0 0) (bytes.getD 1 0)

/-- `rnd()` (44_keyboard_timers_random.md R232): one byte from the injected source, and the state that has drawn it. Log 10. -/
def State.drawByte (s : State) : Byte × State :=
  match s.rndSource with
  | .constant b => (b, { s with draws := s.draws + 1 })
  | .script (b :: rest) => (b, { s with draws := s.draws + 1, rndSource := .script rest })
  | .script [] => (Config.rnd s.draws, { s with draws := s.draws + 1 })
  | .free => (Config.rnd s.draws, { s with draws := s.draws + 1 })

end Sys2Proof.Machine
end

