-- ==== Sys2Proof/Machine/Operands.lean ====
section
/-! DEFINITION. The operand forms of the instructions (spec/42_load_alu.md R180, spec/43_index_memory.md R202 to R210,
spec/44_keyboard_timers_random.md R220). -/

namespace Sys2Proof.Machine

/-- The source of SHR and SHL: `V[y]` when `SHIFT_USES_VY`, else `V[x]` (42_load_alu.md R180; log 5). -/
def State.shiftSource (s : State) (x y : Nibble) : Byte := if s.params.shiftUsesVy then s.reg y else s.reg x

/-- The registers `V[0]` to `V[x]` in order (43_index_memory.md R205: "registers 0..=x inclusive"). -/
def State.firstRegs (s : State) (x : Nibble) : List Byte := s.v.toList.take (x.toNat + 1)

/-- `for k: V[k] <- bytes[k]`, registers past the list unchanged (43_index_memory.md R206, R209). -/
def State.loadRegs (s : State) (bytes : List Byte) : State :=
  { s with v := Vector.ofFn fun k => bytes.getD k.val s.v[k] }

/-- `FB[0]` to `FB[x]` in order (43_index_memory.md R209). -/
def State.firstFlags (s : State) (x : Nibble) : List Byte := s.fb.toList.take (x.toNat + 1)

/-- `for k: FB[k] <- bytes[k]`, cells past the list unchanged (43_index_memory.md R208). -/
def State.saveFlags (s : State) (bytes : List Byte) : State :=
  { s with fb := Vector.ofFn fun k => bytes.getD k.val s.fb[k] }

/-- The flag-bank bound: `raise FlagIndexOutOfRange(x)` for x above 7 (43_index_memory.md R208, R209). -/
def checkFlagIndex (x : Nibble) : Except CoreFault Unit :=
  if x.toNat > 7 then .error (.flagIndexOutOfRange x) else .ok ()

/-- The effective address of the memory instructions: `I` as an unbounded integer (43_index_memory.md R210, 20_memory.md R65). -/
def State.address (s : State) : Nat := s.i.toNat

/-- The decimal digits of a byte, hundreds first (43_index_memory.md R204). -/
def decimalDigits (b : Byte) : List Byte :=
  [BitVec.ofNat 8 (b.toNat / 100), BitVec.ofNat 8 (b.toNat / 10 % 10), BitVec.ofNat 8 (b.toNat % 10)]

/-- The address of a glyph of the 5-byte font, `digit * 5`, unmasked (43_index_memory.md R202, D11). -/
def smallGlyph (digit : Byte) : Word := zext16 digit * 5

/-- The address of a glyph of the 10-byte font, `80 + digit * 10`, unmasked (43_index_memory.md R203, D11). -/
def largeGlyph (digit : Byte) : Word := 80 + zext16 digit * 10

/-- `KEY[V[x]]`, or KeyIndexOutOfRange (44_keyboard_timers_random.md R220, R221, D12). -/
def State.keyDown (s : State) (k : Byte) : Except CoreFault Bool :=
  if h : k.toNat < 16 then .ok (s.keys[k.toNat]'h) else .error (.keyIndexOutOfRange k)

end Sys2Proof.Machine
end

