-- ==== Sys2Proof/Machine/Flags.lean ====
section
/-! DEFINITION. The flag values of VF (spec/10_state.md R26, spec/42_load_alu.md R171, R178 to R184, spec/40_display_engine.md R136), and
the order of the result write and the flag write. -/

namespace Sys2Proof.Machine

/-- A Boolean flag as a byte: 1 or 0 (D13). -/
def flagByte (b : Bool) : Byte := if b then 1 else 0

/-- ADD: 1 on unsigned 8-bit overflow (42_load_alu.md R178). -/
def addFlag (a b : Byte) : Byte := flagByte (decide (a.toNat + b.toNat > 255))

/-- SUB and, with the operands exchanged, SUBN: 1 when minuend > subtrahend, strictly (42_load_alu.md R179, R181). -/
def subFlag (minuend subtrahend : Byte) : Byte := flagByte (decide (minuend.toNat > subtrahend.toNat))

/-- SHR: bit 0 of the source before the shift (42_load_alu.md R180). -/
def shrFlag (source : Byte) : Byte := source &&& 0x01

/-- SHL: the source ANDed with 0b10000000, so 128 or 0 (42_load_alu.md R184). -/
def shlFlag (source : Byte) : Byte := source &&& 0x80

/-- The two writes of R171, in the order `VF_WRITE_LAST` gives (log 6). -/
def State.writeResultFlag (s : State) (x : Nibble) (result flag : Byte) : State :=
  if s.params.vfWriteLast then (s.setReg x result).setVf flag else (s.setVf flag).setReg x result

end Sys2Proof.Machine
end

