-- ==== Sys2Proof/Machine/ControlFlow.lean ====
section
/-! DEFINITION. Control transfer and host-control instructions (spec/41_control_flow.md R151 to R160). -/

namespace Sys2Proof.Machine

/-- RET (R151): the popped address plus 2. -/
def execRet (s : State) : Result := finish s (s.pop.map fun popped => popped.2.jump (popped.1 + 2))

/-- EXIT (R152). -/
def execExit (s : State) : Result := signalHost .exit s

/-- FREEZE (R153). -/
def execFreeze (s : State) : Result := signalHost .freeze s

/-- JP nnn (R154). -/
def execJp (nnn : Addr) (s : State) : Result := .next (s.jump (zext16 nnn))

/-- CALL nnn (R155): pushes the address of the CALL word itself. -/
def execCall (nnn : Addr) (s : State) : Result := finish s ((s.push s.pc).map fun t => t.jump (zext16 nnn))

/-- SE Vx, kk (R156). -/
def execSeImm (x : Nibble) (kk : Byte) (s : State) : Result := .next (s.skipIf (s.reg x == kk))

/-- SNE Vx, kk (R157). -/
def execSneImm (x : Nibble) (kk : Byte) (s : State) : Result := .next (s.skipIf (s.reg x != kk))

/-- SE Vx, Vy (R158). -/
def execSeReg (x y : Nibble) (s : State) : Result := .next (s.skipIf (s.reg x == s.reg y))

/-- SNE Vx, Vy (R159). -/
def execSneReg (x y : Nibble) (s : State) : Result := .next (s.skipIf (s.reg x != s.reg y))

/-- JP V0, nnn (R160): always V0, the sum kept in 16 bits (D10). -/
def execJpV0 (nnn : Addr) (s : State) : Result := .next (s.jump (zext16 nnn + zext16 (s.reg 0)))

end Sys2Proof.Machine
end

