-- ==== Sys2Proof/Machine/Drawing.lean ====
section
/-! DEFINITION. The display instructions (spec/40_display_engine.md R130 to R137). -/

namespace Sys2Proof.Machine

/-- A display primitive, then `next` (R130 to R135). -/
def State.withDisplay (s : State) (d : Display) : State := { s with display := d }

/-- SCD z (R133). -/
def execScd (z : Nibble) (s : State) : Result := .next (s.withDisplay (s.display.scrollDown z.toNat)).next

/-- CLS (R130). -/
def execCls (s : State) : Result := .next (s.withDisplay s.display.clear).next

/-- SCR (R134). -/
def execScr (s : State) : Result := .next (s.withDisplay s.display.scrollRight).next

/-- SCL (R135). -/
def execScl (s : State) : Result := .next (s.withDisplay s.display.scrollLeft).next

/-- LOW (R131). -/
def execLow (s : State) : Result := .next (s.withDisplay (s.display.setHires false)).next

/-- HIGH (R132). -/
def execHigh (s : State) : Result := .next (s.withDisplay (s.display.setHires true)).next

/-- The end of a draw: the picture is the blit's, VF the collision as 1 or 0, then `next` (R136, R137). -/
def State.drawn (s : State) (blit : Display × Bool) : State := ((s.withDisplay blit.1).setVf (flagByte blit.2)).next

/-- DRW Vx, Vy, z, z in 1..15 (R136): the coordinates are read before VF is written. -/
def execDrw (x y z : Nibble) (s : State) : Result :=
  finish s ((memRead s.mem s.address z.toNat).map fun bytes =>
    s.drawn (s.display.draw (s.reg x).toNat (s.reg y).toNat bytes))

/-- DRW Vx, Vy, 0 (R137): 32 bytes in both modes (D36). -/
def execDrw16 (x y : Nibble) (s : State) : Result :=
  finish s ((memRead s.mem s.address 32).map fun bytes =>
    s.drawn (s.display.schipDraw (s.reg x).toNat (s.reg y).toNat bytes))

end Sys2Proof.Machine
end

