-- ==== Sys2Proof/Machine/IndexMemory.lean ====
section
/-! DEFINITION. Address register, memory transfer and flag-bank instructions (spec/43_index_memory.md R199 to R209). None writes VF as a
flag; I is changed only by the first four. -/

namespace Sys2Proof.Machine

/-- LD I, nnn (R200). -/
def execLdI (nnn : Addr) (s : State) : Result := .next (s.setI (zext16 nnn)).next

/-- ADD I, Vx (R201): modulo 65536, no flag (D9). -/
def execAddI (x : Nibble) (s : State) : Result := .next (s.setI (s.i + zext16 (s.reg x))).next

/-- LD F, Vx (R202). -/
def execLdF (x : Nibble) (s : State) : Result := .next (s.setI (smallGlyph (s.reg x))).next

/-- LD HF, Vx (R203). -/
def execLdHf (x : Nibble) (s : State) : Result := .next (s.setI (largeGlyph (s.reg x))).next

/-- The end of a store: the new memory, then `next` (R204, R205). -/
def State.stored (s : State) (m : Memory) : State := { s with mem := m }.next

/-- LD B, Vx (R204). -/
def execLdB (x : Nibble) (s : State) : Result :=
  finish s ((memWrite s.mem s.address (decimalDigits (s.reg x))).map s.stored)

/-- LD [I], Vx (R205): I unchanged (D8). -/
def execLdMemVx (x : Nibble) (s : State) : Result :=
  finish s ((memWrite s.mem s.address (s.firstRegs x)).map s.stored)

/-- LD Vx, [I] (R206): I unchanged (D8). -/
def execLdVxMem (x : Nibble) (s : State) : Result :=
  finish s ((memRead s.mem s.address (x.toNat + 1)).map fun bytes => (s.loadRegs bytes).next)

/-- LD R, Vx (R208). -/
def execLdR (x : Nibble) (s : State) : Result :=
  finish s ((checkFlagIndex x).map fun _ => (s.saveFlags (s.firstRegs x)).next)

/-- LD Vx, R (R209). -/
def execLdVxR (x : Nibble) (s : State) : Result :=
  finish s ((checkFlagIndex x).map fun _ => (s.loadRegs (s.firstFlags x)).next)

end Sys2Proof.Machine
end

