-- ==== Sys2Proof/Machine/KeyTimerRandom.lean ====
section
/-! DEFINITION. Keyboard, timer and random instructions (spec/44_keyboard_timers_random.md R219 to R231). -/

namespace Sys2Proof.Machine

/-- SKP Vx (R220). -/
def execSkp (x : Nibble) (s : State) : Result := finish s ((s.keyDown (s.reg x)).map fun down => s.skipIf down)

/-- SKNP Vx (R221). -/
def execSknp (x : Nibble) (s : State) : Result := finish s ((s.keyDown (s.reg x)).map fun down => s.skipIf (!down))

/-- LD Vx, K (R224): arm, spin, or consume. -/
def execLdVxK (x : Nibble) (s : State) : Result :=
  match s.wait with
  | .noWait => .next { s with wait := .waiting }
  | .waiting => .next s
  | .keyPressed k => .next ({ s with wait := .noWait }.setReg x (k.setWidth 8)).next

/-- LD Vx, DT (R226). -/
def execLdVxDt (x : Nibble) (s : State) : Result := .next (s.setReg x s.dt).next

/-- LD DT, Vx (R227). -/
def execLdDt (x : Nibble) (s : State) : Result := .next { s with dt := s.reg x }.next

/-- LD ST, Vx (R228). -/
def execLdSt (x : Nibble) (s : State) : Result := .next { s with st := s.reg x }.next

/-- RND Vx, kk (R231): exactly one byte is drawn. -/
def execRnd (x : Nibble) (kk : Byte) (s : State) : Result := .next (s.drawByte.2.setReg x (s.drawByte.1 &&& kk)).next

end Sys2Proof.Machine
end

