-- ==== Sys2Proof/Machine/LoadAlu.lean ====
section
/-! DEFINITION. Register loads and the arithmetic/logic unit (spec/42_load_alu.md R170 to R184). Bytes wrap modulo 256; none of these
instructions can fault. -/

namespace Sys2Proof.Machine

/-- LD Vx, kk (R172). -/
def execLdImm (x : Nibble) (kk : Byte) (s : State) : Result := .next (s.setReg x kk).next

/-- ADD Vx, kk (R173): no flag (D7). -/
def execAddImm (x : Nibble) (kk : Byte) (s : State) : Result := .next (s.setReg x (s.reg x + kk)).next

/-- LD Vx, Vy (R174). -/
def execLdReg (x y : Nibble) (s : State) : Result := .next (s.setReg x (s.reg y)).next

/-- OR Vx, Vy (R175): VF unchanged (D7). -/
def execOr (x y : Nibble) (s : State) : Result := .next (s.setReg x (s.reg x ||| s.reg y)).next

/-- AND Vx, Vy (R176). -/
def execAnd (x y : Nibble) (s : State) : Result := .next (s.setReg x (s.reg x &&& s.reg y)).next

/-- XOR Vx, Vy (R177). -/
def execXor (x y : Nibble) (s : State) : Result := .next (s.setReg x (s.reg x ^^^ s.reg y)).next

/-- ADD Vx, Vy (R178). -/
def execAddReg (x y : Nibble) (s : State) : Result :=
  .next (s.writeResultFlag x (s.reg x + s.reg y) (addFlag (s.reg x) (s.reg y))).next

/-- SUB Vx, Vy (R179). -/
def execSub (x y : Nibble) (s : State) : Result :=
  .next (s.writeResultFlag x (s.reg x - s.reg y) (subFlag (s.reg x) (s.reg y))).next

/-- SHR Vx, Vy (R180). -/
def execShr (x y : Nibble) (s : State) : Result :=
  .next (s.writeResultFlag x (s.shiftSource x y >>> 1) (shrFlag (s.shiftSource x y))).next

/-- SUBN Vx, Vy (R181): the minuend is Vy, the destination still Vx. -/
def execSubn (x y : Nibble) (s : State) : Result :=
  .next (s.writeResultFlag x (s.reg y - s.reg x) (subFlag (s.reg y) (s.reg x))).next

/-- SHL Vx, Vy (R184). -/
def execShl (x y : Nibble) (s : State) : Result :=
  .next (s.writeResultFlag x (s.shiftSource x y <<< 1) (shlFlag (s.shiftSource x y))).next

end Sys2Proof.Machine
end

