-- ==== Sys2Proof/Machine/HostCalls.lean ====
section
/-! DEFINITION. What the host does to the machine and reads from it, apart from stepping it (spec/60_exceptions.md R260 to R276,
spec/10_state.md R38, spec/70_reset_and_hazards.md R290, R295): the tick, the key input, the two resets, the clocks. -/

namespace Sys2Proof.Machine

/-- A timer counts down towards zero and stays there (60_exceptions.md R270). -/
def countDown (t : Byte) : Byte := if t.toNat > 0 then t - 1 else t

/-- The 60 Hz decrement (60_exceptions.md R270). -/
def tick (s : State) : State := { s with dt := countDown s.dt, st := countDown s.st }

/-- `toggle_key(k, pressed)` (10_state.md R38); a key above 15 is refused (D12). -/
def toggleKey (key : Nat) (pressed : Bool) (s : State) : Result :=
  if h : key < 16 then
    .next { s with
      keys := s.keys.set key pressed h
      wait := if pressed && s.wait == .waiting then .keyPressed (BitVec.ofNat 4 key) else s.wait }
  else .refused (.keyAbove15 key)

/-- `reset()`, the warm reset (70_reset_and_hazards.md R295). Unchanged: MEM, KEY, the stack slots, the clock cells. The record of the
last host signal is cleared with HALT (log 15). -/
def warmReset (s : State) : State :=
  { s with
    v := Vector.replicate 16 0
    i := 0
    pc := 512
    sp := 0
    fb := Vector.replicate 8 0
    dt := 0
    st := 0
    wait := .noWait
    display := Display.blank false
    halt := none
    signal := none }

/-- `PERIOD` of a rate in Hz: whole nanoseconds (60_exceptions.md R272, D24). -/
def periodOf (hz : Nat) : Nat := 1000000000 / hz

/-- `RATIO` of a rate: instructions per decrement (60_exceptions.md R275, D25). -/
def ratioOf (hz : Nat) : Nat := hz / 60

/-- Get the CPU clock rate (60_exceptions.md R276). -/
def clockRate (s : State) : Nat := s.clockHz

/-- Set the CPU clock rate: rate, period and ratio at once (60_exceptions.md R276); below 1 it is refused (D38). -/
def setClock (hz : Nat) (s : State) : Result :=
  if hz < 1 then .refused .clockRateBelow1
  else .next { s with clockHz := hz, cpu := { s.cpu with period := periodOf hz }, ratio := ratioOf hz }

/-- Increment the CPU clock rate: `set(CLOCK_HZ + d)` (60_exceptions.md R276). R276 gives `d` no type and 00_scope.md R7 says that the
hardware has no signed quantity; that `d` may be negative, and then lowers the rate, is the model's DESIGN CHOICE (log 21). -/
def incrementClock (d : Int) (s : State) : Result := setClock (s.clockHz + d).toNat s

/-- How many whole periods have passed since LAST (60_exceptions.md R273); a PERIOD of 0 leaves the count free (log 13). -/
def wholePeriods (c : Clock) (now : Nat) : Nat :=
  if c.period = 0 then Config.dueAtZeroPeriod (now - c.last) else (now - c.last) / c.period

/-- `due(clock, now)` (60_exceptions.md R273): the count, and the clock with LAST rebased to `now` when the count is at least 1. -/
def due (c : Clock) (now : Nat) : Nat × Clock :=
  if wholePeriods c now ≥ 1 then (wholePeriods c now, { c with last := now }) else (0, c)

/-- A call of `cycle()` or `cycle_60Hz()`, if the host keeps the duties of both (60_exceptions.md R268): no call after a fault, no call
within a call (the engine is single-threaded, R258, R262), one driving mode in a session (U21). -/
def driveBy (mode : Driving) (s : State) (call : Result) : Result :=
  match s.halt with
  | some f => .refused (.calledAfterFault f)
  | none =>
    if s.batch ≠ .idle then .refused .callInProgress
    else if s.driving.any (· != mode) then .refused .mixedDriving
    else call

/-- The start of `cycle()` at `now` (60_exceptions.md R274): `t <- due(TMR, now)`; the ticks and steps follow as moves of their own.
The duties of R268 are checked: a non-decreasing time, and those of `driveBy`. -/
def callCycle (now : Nat) (s : State) : Result :=
  driveBy .selfTimed s (
    if now < s.hostNow ∨ now < s.tmr.last ∨ now < s.cpu.last then .refused .clockBackwards
    else .next { s with
      tmr := (due s.tmr now).2
      batch := .cycleTicks now (due s.tmr now).1
      driving := some .selfTimed
      hostNow := now })

/-- The middle of `cycle()` (60_exceptions.md R274): `c <- due(CPU, now)`, and c steps are to come. -/
def askCpuClock (now : Nat) (s : State) : State :=
  { s with cpu := (due s.cpu now).2, batch := .steps (due s.cpu now).1 }

/-- The start of `cycle_60Hz()` (60_exceptions.md R275): one tick; RATIO steps follow as moves of their own. -/
def callCycle60Hz (s : State) : Result :=
  driveBy .externallyTimed s (.next { tick s with batch := .steps s.ratio, driving := some .externallyTimed })

/-- `new(rom, display, randomness)`, the cold reset (70_reset_and_hazards.md R290): a fresh machine with the font at 0 and the ROM copied
to 512. The parameter `FONT` is 240 bytes, or none for the default (10_state.md R33; log 8, log 9). A ROM that does not fit, a font of
another length and a FREEZE word that is none are refused (D30, 00_scope.md R6). -/
def construct (rom : List Byte) (font : Option (List Byte)) (params : Params) (source : RndSource) : Result :=
  if rom.length > 3584 then .refused .romTooLong
  else if font.any (fun f => f.length != 240) then .refused .illegalFont
  else if !params.legal then .refused .illegalFreezeWord
  else .next { State.reset with
    mem := (State.reset.mem.writeBytes 0 (font.getD [])).writeBytes 512 rom
    params := params
    rndSource := source }

/-- The sound output: a tone while `ST` is nonzero (60_exceptions.md R264). -/
def toneOn (s : State) : Bool := s.st != 0

/-- The outcome of a step as the caller receives it (00_scope.md R11). -/
inductive StepReport where
  | next
  | fault (f : CoreFault)
  | signal (h : HostSignal)
  deriving DecidableEq, Repr

/-- The outcome of the last step (00_scope.md R11, 60_exceptions.md R260): a recorded fault, a host signal, or neither. -/
def lastOutcome (s : State) : StepReport :=
  match s.halt with
  | some f => .fault f
  | none =>
    match s.signal with
    | some h => .signal h
    | none => .next

end Sys2Proof.Machine
end

