-- ==== Sys2Proof/Machine/Engine.lean ====
section
/-! DEFINITION. The step of the execution engine (spec/30_encoding.md R110), the moves of a `cycle()` or `cycle_60Hz()` call in progress
(spec/60_exceptions.md R274, R275), and one move of the whole machine under the host's events (spec/00_scope.md R12). -/

namespace Sys2Proof.Machine

/-- The state in which an instruction executes: the report of the step before is gone (log 2). -/
def State.clearSignal (s : State) : State := { s with signal := none }

/-- Decode and execute a fetched word (30_encoding.md R106, R110). -/
def runWord (op : Word) (s : State) : Result :=
  match decodeWord s.params.freezeWord op with
  | .ok i => exec i s
  | .error _ => raise (.invalidInstruction op) s

/-- `Step(s)` (30_encoding.md R110, 60_exceptions.md R245): no step in a halted machine; then fetch, decode, execute. -/
def executeNext (s : State) : Result :=
  match s.halt with
  | some f => .fault (.halted f)
  | none =>
    match fetch s with
    | .error f => raise f s.clearSignal
    | .ok op => runWord op s.clearSignal

/-- A batch stops at the first fault or signal, which the call returns (60_exceptions.md R274, R275). -/
def endBatch (r : Result) : Result :=
  match r with
  | .next t => if t.halt = none ∧ t.signal = none then .next t else .next { t with batch := .idle }
  | .fault f => .fault f
  | .refused q => .refused q

/-- The engine's next move: a tick or step of the host call in progress, else one `execute_next_instruction()`. -/
def engineMove (s : State) : Result :=
  match s.batch with
  | .idle => executeNext s
  | .cycleTicks now 0 => .next (askCpuClock now s)
  | .cycleTicks now (left + 1) => .next { tick s with batch := .cycleTicks now left }
  | .steps 0 => .next { s with batch := .idle }
  | .steps (left + 1) => endBatch (executeNext { s with batch := .steps left })

/-- One event of the outside world (60_exceptions.md R260, R268). -/
def hostEvent (e : HostEvent) (s : State) : Result :=
  match e with
  | .advance => engineMove s
  | .tick => .next (tick s)
  | .toggleKey key pressed => toggleKey key pressed s
  | .reset => .next (warmReset s)
  | .setClock hz => setClock hz s
  | .incrementClock d => incrementClock d s
  | .cycle now => callCycle now s
  | .cycle60Hz => callCycle60Hz s

/-- One move of the machine: the next event of `inputs`, or, when the outside world does nothing, the engine's move (log 11). -/
def move (s : State) : Result :=
  match s.inputs with
  | [] => engineMove s
  | e :: rest => hostEvent e { s with inputs := rest }

/-- Where a word is placed for the next fetch: at `PC`, or at 512 when no word can be fetched at `PC` (30_encoding.md R91). -/
def placePc (s : State) : Word := if s.pc.toNat ≥ 4095 then 512 else s.pc

end Sys2Proof.Machine
end

