-- ==== Sys2Proof/Machine/Step.lean ====
section
/-! DEFINITION. The step of the model, and a state made ready to run one given instruction. -/

namespace Sys2Proof.Machine

/-- One step (30_encoding.md R110 under the agents of 00_scope.md R12): see `move`. -/
def step (s : State) : Host.Outcome State Fault Refusal := move s

/-- `s` with the instruction word `w` stored where `step` fetches next, and nothing in the way of that fetch: no fault recorded, no
host event before it, no call in progress. Log 14. -/
def State.withFetchWord (s : State) (nbits w : Nat) : State :=
  { s with
    pc := placePc s
    mem := s.mem.writeBytes (placePc s).toNat (tableBytes nbits w)
    halt := none
    inputs := []
    batch := .idle }

end Sys2Proof.Machine
end

