-- ==== Sys2Proof/Safety.lean ====
section
/-! DEFINITION. What counts as a well-formed machine and as the end of a run, and the spec's tables of who writes what, in the terms the
statements use. -/

namespace Sys2Proof.Machine

/-- The clock cells agree (60_exceptions.md R272, R275, R276): a rate of at least 1 Hz, the period and ratio computed from it, and the
60 Hz clock fixed. -/
def ClocksAgree (s : State) : Prop :=
  1 ≤ s.clockHz ∧ s.cpu.period = 1000000000 / s.clockHz ∧ s.ratio = s.clockHz / 60 ∧ s.tmr.period = 16666666

/-- A step reports one outcome only (00_scope.md R11): no signal beside a recorded fault. -/
def OneOutcome (s : State) : Prop := s.halt = none ∨ s.signal = none

/-- The bounds 10_state.md R25 gives: `PC` at most 4350, and every stack slot the address of a word that could be fetched. -/
def PcBounded (s : State) : Prop := s.pc.toNat ≤ 4350 ∧ ∀ k : Fin 16, s.stack[k].toNat ≤ 4094

/-- The calls of `cycle()` (60_exceptions.md R268, R273, R274; log 12): neither clock was serviced later than the latest time the host
supplied, a call in progress has that time, and a recorded fault has ended the call. -/
def CallsAgree (s : State) : Prop :=
  s.tmr.last ≤ s.hostNow ∧ s.cpu.last ≤ s.hostNow ∧ (∀ now left, s.batch = .cycleTicks now left → now = s.hostNow) ∧
  (s.halt = none ∨ s.batch = .idle)

/-- The machine's invariant: canonical memory, a grid of exactly W*H pixels, agreeing clocks, one outcome, bounded `PC`, a legal
`FREEZE_WORD`, and agreeing host calls. -/
structure Inv (s : State) : Prop where
  memWf : s.mem.wf = true
  displayWf : s.display.wf = true
  clocks : ClocksAgree s
  outcome : OneOutcome s
  pcBound : PcBounded s
  params : s.params.legal = true
  calls : CallsAgree s

/-- A run has ended, successfully, at the first step whose outcome is the Exit signal (60_exceptions.md R252). -/
def Finished (s : State) : Prop := lastOutcome s = .signal .exit

/-- A run that reached a fault has ended unsuccessfully (60_exceptions.md R252). -/
def Halted (s : State) : Prop := ∃ f, lastOutcome s = .fault f

/-- Nothing but `V` and `PC` differs. -/
def OnlyRegsAndPc (s t : State) : Prop := t = { s with v := t.v, pc := t.pc }

/-- Nothing but `PC` differs. -/
def OnlyPc (s t : State) : Prop := t = { s with pc := t.pc }

/-- Nothing but the display and `PC` differs. -/
def OnlyDisplayAndPc (s t : State) : Prop := t = { s with display := t.display, pc := t.pc }

/-- What R171 (42_load_alu.md) says of the registers after an instruction with result `result` to register `x` and flag value `flag`:
with `x` other than 15 both are there; with `x` 15 the later of the two writes is. Every other register is unchanged. -/
def WritesResultAndFlag (s t : State) (x : Nibble) (result flag : Nat) : Prop :=
  (x ≠ 15 → (t.reg x).toNat = result ∧ t.vf.toNat = flag) ∧
  (x = 15 → t.vf.toNat = if s.params.vfWriteLast then flag else result) ∧
  ∀ r, r ≠ x → r ≠ 15 → t.reg r = s.reg r

/-- The registers an instruction may write (10_state.md R22): V[x], V[0..x], and VF as a flag. -/
def writesReg (i : Instr) (r : Nibble) : Bool :=
  match i with
  | .ldImm x _ | .addImm x _ | .rnd x _ => r == x
  | .ldReg x _ | .or x _ | .and x _ | .xor x _ => r == x
  | .ldVxDt x | .ldVxK x => r == x
  | .addReg x _ | .sub x _ | .shr x _ | .subn x _ | .shl x _ => r == x || r == 15
  | .drw _ _ _ | .drw16 _ _ => r == 15
  | .ldVxMem x | .ldVxR x => decide (r.toNat ≤ x.toNat)
  | .scd _ | .cls | .ret | .scr | .scl | .exit | .low | .high | .freeze | .jp _ | .call _ => false
  | .seImm _ _ | .sneImm _ _ | .seReg _ _ | .sneReg _ _ | .ldI _ | .jpV0 _ | .skp _ | .sknp _ => false
  | .ldDt _ | .ldSt _ | .addI _ | .ldF _ | .ldHf _ | .ldB _ | .ldMemVx _ | .ldR _ => false

/-- The instructions that write `I` (10_state.md R31). -/
def writesI (i : Instr) : Prop := (∃ n, i = .ldI n) ∨ (∃ x, i = .addI x) ∨ (∃ x, i = .ldF x) ∨ ∃ x, i = .ldHf x

/-- The instructions that write `SP` (10_state.md R31). -/
def writesSp (i : Instr) : Prop := (∃ n, i = .call n) ∨ i = .ret

/-- The instructions that write `PIX` (10_state.md R31). -/
def writesPix (i : Instr) : Prop :=
  i = .cls ∨ i = .low ∨ i = .high ∨ (∃ z, i = .scd z) ∨ i = .scr ∨ i = .scl ∨ (∃ x y z, i = .drw x y z) ∨ ∃ x y, i = .drw16 x y

/-- The bytes an instruction stores to, as first address and number of bytes (20_memory.md R65): the address is the one its meaning
uses, `State.address`. None for an instruction that stores nothing. -/
def storesAt (i : Instr) (s : State) : Option (Nat × Nat) :=
  match i with
  | .ldB _ => some (s.address, 3)
  | .ldMemVx x => some (s.address, x.toNat + 1)
  | .scd _ | .cls | .ret | .scr | .scl | .exit | .low | .high | .freeze | .jp _ | .call _ | .seImm _ _ => none
  | .sneImm _ _ | .seReg _ _ | .ldImm _ _ | .addImm _ _ | .ldReg _ _ | .or _ _ | .and _ _ | .xor _ _ => none
  | .addReg _ _ | .sub _ _ | .shr _ _ | .subn _ _ | .shl _ _ | .sneReg _ _ | .ldI _ | .jpV0 _ | .rnd _ _ => none
  | .drw _ _ _ | .drw16 _ _ | .skp _ | .sknp _ | .ldVxDt _ | .ldVxK _ | .ldDt _ | .ldSt _ | .addI _ | .ldF _ => none
  | .ldHf _ | .ldVxMem _ | .ldR _ | .ldVxR _ => none

/-- MemoryOutOfRange for an access of n bytes at `I` (20_memory.md R64, R65). -/
def rangeFault (s : State) (n : Nat) : Option CoreFault :=
  if s.i.toNat + n - 1 > 4095 then some (.memoryOutOfRange s.i.toNat) else none

/-- KeyIndexOutOfRange for the key V[x] (60_exceptions.md R240). -/
def keyFault (s : State) (x : Nibble) : Option CoreFault :=
  if (s.reg x).toNat > 15 then some (.keyIndexOutOfRange (s.reg x)) else none

/-- FlagIndexOutOfRange for x (60_exceptions.md R240). -/
def flagFault (x : Nibble) : Option CoreFault :=
  if x.toNat > 7 then some (.flagIndexOutOfRange x) else none

/-- The instruction's own fault condition (60_exceptions.md R240, R245): at most one for each instruction. -/
def ownFault (i : Instr) (s : State) : Option CoreFault :=
  match i with
  | .call _ => if s.sp = 16 then some .stackOverflow else none
  | .ret => if s.sp = 0 then some .stackUnderflow else none
  | .ldR x => flagFault x
  | .ldVxR x => flagFault x
  | .drw _ _ z => rangeFault s z.toNat
  | .drw16 _ _ => rangeFault s 32
  | .ldB _ => rangeFault s 3
  | .ldMemVx x => rangeFault s (x.toNat + 1)
  | .ldVxMem x => rangeFault s (x.toNat + 1)
  | .skp x => keyFault s x
  | .sknp x => keyFault s x
  | .scd _ | .cls | .scr | .scl | .exit | .low | .high | .freeze | .jp _ | .seImm _ _ | .sneImm _ _ => none
  | .seReg _ _ | .ldImm _ _ | .addImm _ _ | .ldReg _ _ | .or _ _ | .and _ _ | .xor _ _ | .addReg _ _ => none
  | .sub _ _ | .shr _ _ | .subn _ _ | .shl _ _ | .sneReg _ _ | .ldI _ | .jpV0 _ | .rnd _ _ | .ldVxDt _ => none
  | .ldVxK _ | .ldDt _ | .ldSt _ | .addI _ | .ldF _ | .ldHf _ => none

/-- The top of the return stack, `STACK[SP-1]` (41_control_flow.md R151). -/
def stackTop (s : State) : Word := s.stack.toList.getD (s.sp.val - 1) 0

/-- `p + 4` when the condition holds, else `p + 2` (10_state.md R25). -/
def skipPc (p : Word) (condition : Bool) : Word := if condition then p + 4 else p + 2

/-- `KEY[V[x]]` when `V[x]` is a key. -/
def keyOf (s : State) (x : Nibble) : Bool := s.keys.toList.getD (s.reg x).toNat false

/-- How each instruction that does not fault leaves `PC` (10_state.md R25). -/
def pcAfter (i : Instr) (s : State) : Word :=
  match i with
  | .seImm x kk => skipPc s.pc (s.reg x == kk)
  | .sneImm x kk => skipPc s.pc (s.reg x != kk)
  | .seReg x y => skipPc s.pc (s.reg x == s.reg y)
  | .sneReg x y => skipPc s.pc (s.reg x != s.reg y)
  | .skp x => skipPc s.pc (keyOf s x)
  | .sknp x => skipPc s.pc (!keyOf s x)
  | .jp nnn => zext16 nnn
  | .call nnn => zext16 nnn
  | .jpV0 nnn => zext16 nnn + zext16 (s.reg 0)
  | .ret => stackTop s + 2
  | .ldVxK _ => if s.wait = .noWait ∨ s.wait = .waiting then s.pc else s.pc + 2
  | .exit => s.pc
  | .freeze => s.pc
  | .scd _ | .cls | .scr | .scl | .low | .high | .ldImm _ _ | .addImm _ _ | .ldReg _ _ | .or _ _ | .and _ _ => s.pc + 2
  | .xor _ _ | .addReg _ _ | .sub _ _ | .shr _ _ | .subn _ _ | .shl _ _ | .ldI _ | .rnd _ _ | .drw _ _ _ => s.pc + 2
  | .drw16 _ _ | .ldVxDt _ | .ldDt _ | .ldSt _ | .addI _ | .ldF _ | .ldHf _ | .ldB _ | .ldMemVx _ => s.pc + 2
  | .ldVxMem _ | .ldR _ | .ldVxR _ => s.pc + 2

/-- The instruction that gives a host signal (60_exceptions.md R250). -/
def signalInstr (h : HostSignal) : Instr :=
  match h with
  | .exit => .exit
  | .freeze => .freeze

/-- The bit a sprite of rows `bytes` at `(x0, y0)` puts on the pixel at row r and column c of a grid of W columns and H rows
(40_display_engine.md R122): some byte k lies on row r and some bit j, most significant first, on column c, and it is 1. -/
def SpriteBit (W H x0 y0 : Nat) (bytes : List Byte) (r c : Nat) : Prop :=
  ∃ k < bytes.length, ∃ j < 8, (y0 + k) % H = r ∧ (x0 + j) % W = c ∧ (bytes.getD k 0).getLsbD (7 - j) = true

/-- The bit the 16x16 sprite puts on the pixel at row r and column c (40_display_engine.md R123): the left byte of row k at `x0`, the
right byte at `x0 + 8` in hi-res only. -/
def BigSpriteBit (hires : Bool) (x0 y0 : Nat) (bytes : List Byte) (r c : Nat) : Prop :=
  ∃ k < 16, ∃ j < 8, (y0 + k) % heightOf hires = r ∧
    (((x0 + j) % widthOf hires = c ∧ (bytes.getD (2 * k) 0).getLsbD (7 - j) = true) ∨
      (hires = true ∧ (x0 + 8 + j) % widthOf hires = c ∧ (bytes.getD (2 * k + 1) 0).getLsbD (7 - j) = true))

/-- A step that would run an instruction: no fault recorded, no event of the outside world before it, no host call in progress. -/
def ReadyToStep (s : State) : Prop := s.halt = none ∧ s.inputs = [] ∧ s.batch = .idle

/-- It is the engine's turn in `s`, and it moves from `u`: no event of the outside world is listed, or the first one lets the engine move
and is taken off the list (log 11). -/
def EngineTurn (s u : State) : Prop :=
  (s.inputs = [] ∧ u = s) ∨ ∃ rest, s.inputs = .advance :: rest ∧ u = { s with inputs := rest }

/-- The word at `PC`, big-endian: `op = MEM[PC] ++ MEM[PC+1]` (20_memory.md R61). -/
def wordAtPc (s : State) : Word := s.mem.read s.pc.toNat ++ s.mem.read (s.pc.toNat + 1)

/-- The n bytes of memory from `I`, lowest address first (20_memory.md R62). -/
def bytesAtI (s : State) (n : Nat) : List Byte := (List.range n).map fun k => s.mem.read (s.i.toNat + k)

/-- A result with its next state changed by a function; a stop stays the stop. -/
def mapNext (f : State → State) (r : Result) : Result :=
  match r with
  | .next t => .next (f t)
  | .fault q => .fault q
  | .refused q => .refused q

end Sys2Proof.Machine
end

