-- ==== Sys2Proof/Certificates/Slice0/Obligations.lean ====
section
/-! DEFINITION. The statements about the machine, from the numbered rules of spec/. Nothing is proved here. -/

open Sys2Proof Sys2Proof.Machine

/-! ## Encoding (spec/30_encoding.md) -/

/-- Decoding the bytes of the encoding of any well-formed instruction gives it back, with every operand at every value, and leaves the
bytes after it (R90, R95, R100, R108). The numbers of the encoding rest on D1 (log 16). -/
def Obligations.DecodeEncodeRoundTrip : Prop :=
  ∀ (fw : Option Word) (i : Instr) (rest : List Byte), WellFormed fw i = true →
    decode fw (bytesOfWord (encode fw i) ++ rest) = .ok (i, rest)

/-- Whatever a word decodes to is well-formed and encodes back to that word: no bit of a valid word is ignored (R95, R101 to R106). -/
def Obligations.EncodeDecodeRoundTrip : Prop :=
  ∀ (fw : Option Word) (op : Word) (i : Instr), fw.all legalFreezeWord = true → decodeWord fw op = .ok i →
    WellFormed fw i = true ∧ encode fw i = op

/-- Decoding is total, and the invalid words are exactly those R106 lists family by family (D3, D4). -/
def Obligations.InvalidWordsExactly : Prop :=
  ∀ (fw : Option Word) (op : Word), fw.all legalFreezeWord = true →
    ((∃ i, decodeWord fw op = .ok i) ∨ decodeWord fw op = .error (.invalid op)) ∧
    (decodeWord fw op = .error (.invalid op) ↔
      (op.toNat / 4096 = 0 ∧ op.toNat / 16 ≠ 0x0C ∧ op.toNat ∉ [0xE0, 0xEE, 0xFB, 0xFC, 0xFD, 0xFE, 0xFF] ∧ fw ≠ some op) ∨
      ((op.toNat / 4096 = 5 ∨ op.toNat / 4096 = 9) ∧ op.toNat % 16 ≠ 0) ∨
      (op.toNat / 4096 = 8 ∧ op.toNat % 16 ∈ [0x8, 0x9, 0xA, 0xB, 0xC, 0xD, 0xF]) ∨
      (op.toNat / 4096 = 14 ∧ op.toNat % 256 ∉ [0x9E, 0xA1]) ∨
      (op.toNat / 4096 = 15 ∧
        op.toNat % 256 ∉ [0x07, 0x0A, 0x15, 0x18, 0x1E, 0x29, 0x30, 0x33, 0x55, 0x65, 0x75, 0x85]))

/-- A few words written out from the table of R100 decode to the instructions they stand for. -/
def Obligations.TableWordsDecode : Prop :=
  decodeWord none 0x00E0 = .ok .cls ∧ decodeWord none 0x00C3 = .ok (.scd 3) ∧ decodeWord none 0x6005 = .ok (.ldImm 0 5) ∧
  decodeWord none 0x7003 = .ok (.addImm 0 3) ∧ decodeWord none 0x220C = .ok (.call 0x20C) ∧
  decodeWord none 0x8346 = .ok (.shr 3 4) ∧ decodeWord none 0xD012 = .ok (.drw 0 1 2) ∧
  decodeWord none 0xD230 = .ok (.drw16 2 3) ∧ decodeWord none 0xE5A1 = .ok (.sknp 5) ∧
  decodeWord none 0xF30A = .ok (.ldVxK 3) ∧ decodeWord none 0xFA33 = .ok (.ldB 0xA) ∧
  decodeWord (some 0x00FA) 0x00FA = .ok .freeze ∧ decodeWord none 0x00FA = .error (.invalid 0x00FA)

/-! ## The step and the faults (spec/30_encoding.md R110, spec/60_exceptions.md) -/

/-- When the big-endian word at `PC` decodes to an instruction, an engine step, inside a host call or not, is `exec` of it on the state
with the last signal's record cleared (log 2); and a step of the machine is that engine step when no call is in progress and it is the
engine's turn: no event of the outside world is listed, or the first one lets the engine move (log 11). -/
def Obligations.StepRunsDecodedInstruction : Prop :=
  ∀ (u : State) (i : Instr), u.halt = none → u.pc.toNat ≤ 4094 → decodeWord u.params.freezeWord (wordAtPc u) = .ok i →
    executeNext u = exec i { u with signal := none } ∧
    ∀ s : State, EngineTurn s u → u.batch = .idle → step s = exec i { u with signal := none }

/-- Inside a `cycle()` or `cycle_60Hz()` call one step of the batch is one engine step, the batch ends at the first fault or signal, and
with no step left the call returns and changes nothing (R274, R275, D26; log 12). It holds whether the host lists no event or lets the
engine move (log 11). -/
def Obligations.BatchStepStopsAtFaultOrSignal : Prop :=
  ∀ s u : State, EngineTurn s u →
    (∀ (t : State) (n : Nat), u.batch = .steps (n + 1) → executeNext { u with batch := .steps n } = .next t →
      (t.halt = none → t.signal = none → step s = .next t) ∧
      (t.halt ≠ none ∨ t.signal ≠ none → step s = .next { t with batch := .idle })) ∧
    (u.batch = .steps 0 → step s = .next { u with batch := .idle })

/-- A fetch at or above 4095 is the fault MemoryOutOfRange(PC), a fetched word that decodes to nothing the fault InvalidInstruction(op);
neither changes anything else (R91, R106, R241; that the step is a next state with the record set, and the signal's record cleared, is
logs 1 and 2). -/
def Obligations.FetchAndDecodeFaults : Prop :=
  ∀ s u : State, EngineTurn s u → u.halt = none → u.batch = .idle →
    (4095 ≤ u.pc.toNat → step s = .next { u with halt := some (.memoryOutOfRange u.pc.toNat), signal := none }) ∧
    (∀ e : DecodeError, u.pc.toNat ≤ 4094 → decodeWord u.params.freezeWord (wordAtPc u) = .error e →
      step s = .next { u with halt := some (.invalidInstruction (wordAtPc u)), signal := none })

/-- A halted engine has no step (the model's stop, log 3) and calls of `cycle()` and `cycle_60Hz()` are refused (R268); the tick and the
key input still move and keep the record; whatever the step, only the reset clears it (R43, R241, R246, D20). -/
def Obligations.HaltedEngineOnlyResetClears : Prop :=
  ∀ (s : State) (f : CoreFault), s.halt = some f →
    executeNext s = .fault (.halted f) ∧
    (s.inputs = [] → s.batch = .idle → step s = .fault (.halted f)) ∧
    (∀ rest, s.inputs = .tick :: rest → ∃ t, step s = .next t ∧ t.halt = some f ∧ t.dt.toNat = s.dt.toNat - 1) ∧
    (∀ rest k b, s.inputs = .toggleKey k b :: rest → k < 16 → ∃ t, step s = .next t ∧ t.halt = some f ∧ t.keys[k]? = some b) ∧
    (∀ rest, s.inputs = .reset :: rest → ∃ t, step s = .next t ∧ t.halt = none) ∧
    (∀ rest now, s.inputs = .cycle now :: rest → step s = .refused (.calledAfterFault f)) ∧
    (∀ rest, s.inputs = .cycle60Hz :: rest → step s = .refused (.calledAfterFault f)) ∧
    ∀ t, step s = .next t → t.halt = some f ∨ ∃ rest, s.inputs = .reset :: rest

/-- Every instruction answers a next state from every state, and records exactly its own fault condition, if it holds
(R240, R245; log 1). -/
def Obligations.ExecRecordsExactlyOwnFault : Prop :=
  ∀ (i : Instr) (s : State), s.halt = none → ∃ t, exec i s = .next t ∧ t.halt = ownFault i s

/-- Faults are precise: the state after a faulting step is the state before it but for the record (R241). That the model also clears the
last signal's record is log 2. -/
def Obligations.FaultsArePrecise : Prop :=
  ∀ (s t : State) (f : CoreFault), s.halt = none → executeNext s = .next t → t.halt = some f →
    t = { s with halt := some f, signal := none }

/-! ## Who changes what (spec/10_state.md R22, R25, R31; spec/20_memory.md R65) -/

/-- A register no row of R22 lets the instruction write is unchanged. -/
def Obligations.RegisterFrame : Prop :=
  ∀ (i : Instr) (s t : State), exec i s = .next t → ∀ r, writesReg i r = false → t.reg r = s.reg r

/-- Every other cell is changed only by the instructions R31 names for it; keys, clock cells, parameters and the host's fields by none. -/
def Obligations.CellFrame : Prop :=
  ∀ (i : Instr) (s t : State), exec i s = .next t →
    (¬ writesI i → t.i = s.i) ∧
    (¬ writesSp i → t.sp = s.sp) ∧
    ((∀ n, i ≠ .call n) → t.stack = s.stack) ∧
    ((∀ x, i ≠ .ldR x) → t.fb = s.fb) ∧
    ((∀ x, i ≠ .ldDt x) → t.dt = s.dt) ∧
    ((∀ x, i ≠ .ldSt x) → t.st = s.st) ∧
    t.keys = s.keys ∧
    ((∀ x, i ≠ .ldVxK x) → t.wait = s.wait) ∧
    (i ≠ .low → i ≠ .high → t.display.hires = s.display.hires) ∧
    (¬ writesPix i → t.display = s.display) ∧
    ((i ≠ .exit ∧ i ≠ .freeze) → t.signal = s.signal) ∧
    ((∀ x kk, i ≠ .rnd x kk) → t.rndSource = s.rndSource ∧ t.draws = s.draws) ∧
    t.clockHz = s.clockHz ∧ t.ratio = s.ratio ∧ t.cpu = s.cpu ∧ t.tmr = s.tmr ∧
    t.params = s.params ∧ t.inputs = s.inputs ∧ t.batch = s.batch ∧ t.driving = s.driving ∧
    t.hostNow = s.hostNow

/-- Every byte of memory outside the bytes the instruction stores to reads as before; the bytes are at `State.address`, as the meaning
computes it, 3 of them for LD B and x + 1 for LD [I]; every other instruction stores nothing (R65). -/
def Obligations.MemoryFrame : Prop :=
  ∀ (i : Instr) (s t : State), exec i s = .next t → ∀ a,
    (∀ base n, storesAt i s = some (base, n) → ¬ (base ≤ a ∧ a < base + n)) → t.mem.read a = s.mem.read a

/-- `PC` after each instruction, and `PC` unchanged by one that faults (R25). -/
def Obligations.PcAfterEveryInstruction : Prop :=
  ∀ (i : Instr) (s t : State), exec i s = .next t →
    (ownFault i s = none → t.pc = pcAfter i s) ∧ (ownFault i s ≠ none → t.pc = s.pc)

/-! ## Reset and the invariant (spec/10_state.md R50, spec/70_reset_and_hazards.md R290) -/

/-- The invariant holds at reset. -/
def Obligations.ResetMeetsInvariant : Prop := Inv State.reset

/-- Every step keeps the invariant: canonical memory, a grid of exactly W*H pixels, agreeing clocks, one outcome, `PC` at most 4350,
agreeing host calls (R25, R40, R272, R276, R11, R268, R274). -/
def Obligations.StepKeepsInvariant : Prop := ∀ s t : State, Inv s → step s = .next t → Inv t

/-- The cold reset: construction puts the font at 0 and the ROM at 512 and sets every cell to its cold reset value; a ROM of more than
3584 bytes is refused (R50, R290, R66, R33; D21, D24, D30). The bytes of the default font are not part of the statement (logs 8, 9). -/
def Obligations.ColdResetValues : Prop :=
  ∀ (rom : List Byte) (font : Option (List Byte)) (p : Params) (src : RndSource), p.legal = true → (∀ f, font = some f → f.length = 240) →
    (rom.length ≤ 3584 → ∃ t, construct rom font p src = .next t ∧
      (∀ k < rom.length, t.mem.read (512 + k) = rom.getD k 0) ∧
      (∀ f, font = some f → ∀ a < 240, t.mem.read a = f.getD a 0) ∧
      (∀ a, 240 ≤ a → (a < 512 ∨ 512 + rom.length ≤ a) → t.mem.read a = 0) ∧
      (∀ r, t.reg r = 0) ∧ t.i = 0 ∧ t.pc = 512 ∧ t.sp = 0 ∧ (∀ k : Fin 16, t.stack[k] = 0) ∧ (∀ k : Fin 8, t.fb[k] = 0) ∧
      t.dt = 0 ∧ t.st = 0 ∧ (∀ k : Fin 16, t.keys[k] = false) ∧ t.wait = .noWait ∧
      t.display.hires = false ∧ t.display.wf = true ∧ (∀ r c, t.display.pix r c = false) ∧ t.halt = none ∧
      t.clockHz = 500 ∧ t.cpu.period = 2000000 ∧ t.ratio = 8 ∧ t.tmr.period = 16666666 ∧ t.cpu.last = 0 ∧ t.tmr.last = 0 ∧
      t.mem.wf = true ∧ t = { State.reset with mem := t.mem, params := p, rndSource := src }) ∧
    (3584 < rom.length → construct rom font p src = .refused .romTooLong)

/-! ## Display (spec/40_display_engine.md) -/

/-- CLS: every pixel 0, the mode kept, nothing else but `PC` changed (R120, R130). -/
def Obligations.ClsClearsEveryPixel : Prop :=
  ∀ (fw : Option Word) (s : State), decodeWord fw 0x00E0 = .ok .cls ∧
    ∃ t, exec .cls s = .next t ∧ OnlyDisplayAndPc s t ∧ t.pc = s.pc + 2 ∧
      t.display.hires = s.display.hires ∧ t.display.wf = true ∧ ∀ r c, t.display.pix r c = false

/-- LOW and HIGH set the mode: the picture is kept when the mode is the requested one, else the new grid is all clear
(R121, R131, R132; D41). -/
def Obligations.ResolutionSwitchClearsOnce : Prop :=
  ∀ (s : State) (hires : Bool),
    ∃ t, exec (if hires then .high else .low) s = .next t ∧ OnlyDisplayAndPc s t ∧ t.pc = s.pc + 2 ∧
      t.display.hires = hires ∧
      (s.display.hires = hires → t.display = s.display) ∧
      (s.display.hires ≠ hires → t.display.wf = true ∧ ∀ r c, t.display.pix r c = false)

/-- SCD z moves every row down by z in hi-res, z / 2 in low-res; vacated rows are 0 (R126, R133). That SCD 0 is valid and moves nothing
is the spec's decision D40 (log 17). -/
def Obligations.ScdMovesRowsDown : Prop :=
  ∀ (s : State) (z : Nibble), s.display.wf = true →
    ∃ t, exec (.scd z) s = .next t ∧ OnlyDisplayAndPc s t ∧ t.pc = s.pc + 2 ∧
      t.display.hires = s.display.hires ∧ t.display.wf = true ∧
      ∀ r < s.display.height, ∀ c < s.display.width,
        t.display.pix r c =
          if (if s.display.hires then z.toNat else z.toNat / 2) ≤ r
          then s.display.pix (r - (if s.display.hires then z.toNat else z.toNat / 2)) c else false

/-- SCR moves every row right by 4 pixels in hi-res, 2 in low-res; vacated columns are 0 (R125). -/
def Obligations.ScrMovesColumnsRight : Prop :=
  ∀ s : State, s.display.wf = true →
    ∃ t, exec .scr s = .next t ∧ OnlyDisplayAndPc s t ∧ t.pc = s.pc + 2 ∧
      t.display.hires = s.display.hires ∧ t.display.wf = true ∧
      ∀ r < s.display.height, ∀ c < s.display.width,
        t.display.pix r c =
          if (if s.display.hires then 4 else 2) ≤ c then s.display.pix r (c - (if s.display.hires then 4 else 2)) else false

/-- SCL moves every row left by 4 pixels in hi-res, 2 in low-res; vacated columns are 0 (R124). -/
def Obligations.SclMovesColumnsLeft : Prop :=
  ∀ s : State, s.display.wf = true →
    ∃ t, exec .scl s = .next t ∧ OnlyDisplayAndPc s t ∧ t.pc = s.pc + 2 ∧
      t.display.hires = s.display.hires ∧ t.display.wf = true ∧
      ∀ r < s.display.height, ∀ c < s.display.width,
        t.display.pix r c =
          if c + (if s.display.hires then 4 else 2) ≤ s.display.width - 1
          then s.display.pix r (c + (if s.display.hires then 4 else 2)) else false

/-- Scrolling left then right gives the picture back but for the columns vacated, which are 0 (R127 (b)). -/
def Obligations.ScrollLeftThenRight : Prop :=
  ∀ d : Display, d.wf = true → ∀ r < d.height, ∀ c < d.width,
    d.scrollLeft.scrollRight.pix r c = if (if d.hires then 4 else 2) ≤ c then d.pix r c else false

/-- The standard blit XORs the sprite bits in, wrapping on both axes, and reports a collision exactly when a set pixel meets a 1 bit
(R122). -/
def Obligations.DrawXorsSpriteBits : Prop :=
  ∀ (d : Display) (x0 y0 : Nat) (bytes : List Byte), d.wf = true → bytes.length ≤ 16 →
    (d.draw x0 y0 bytes).1.hires = d.hires ∧ (d.draw x0 y0 bytes).1.wf = true ∧
    (∀ r < d.height, ∀ c < d.width,
      ((d.draw x0 y0 bytes).1.pix r c = true ↔ Xor (d.pix r c = true) (SpriteBit d.width d.height x0 y0 bytes r c))) ∧
    ((d.draw x0 y0 bytes).2 = true ↔
      ∃ r < d.height, ∃ c < d.width, d.pix r c = true ∧ SpriteBit d.width d.height x0 y0 bytes r c)

/-- The 16x16 blit XORs the left bytes in at x and, in hi-res only, the right bytes at x + 8; the collision is that of all of them
(R123). -/
def Obligations.BigDrawXorsSpriteBits : Prop :=
  ∀ (d : Display) (x0 y0 : Nat) (bytes : List Byte), d.wf = true → bytes.length = 32 →
    (d.schipDraw x0 y0 bytes).1.hires = d.hires ∧ (d.schipDraw x0 y0 bytes).1.wf = true ∧
    (∀ r < d.height, ∀ c < d.width,
      ((d.schipDraw x0 y0 bytes).1.pix r c = true ↔ Xor (d.pix r c = true) (BigSpriteBit d.hires x0 y0 bytes r c))) ∧
    ((d.schipDraw x0 y0 bytes).2 = true ↔
      ∃ r < d.height, ∃ c < d.width, d.pix r c = true ∧ BigSpriteBit d.hires x0 y0 bytes r c)

/-- Drawing the same sprite twice at one place restores the picture, and the second draw collides exactly when the sprite has a 1 bit on
a pixel that was 0 before the first (R127 (a)). -/
def Obligations.DrawTwiceRestores : Prop :=
  ∀ (d : Display) (x0 y0 : Nat) (bytes : List Byte), d.wf = true → bytes.length ≤ 16 →
    ((d.draw x0 y0 bytes).1.draw x0 y0 bytes).1 = d ∧
    (((d.draw x0 y0 bytes).1.draw x0 y0 bytes).2 = true ↔
      ∃ r < d.height, ∃ c < d.width, d.pix r c = false ∧ SpriteBit d.width d.height x0 y0 bytes r c)

/-- DRW and DRW16: the z bytes at `I` (32 for DRW16, in both modes) drawn at (V[x], V[y]) as they were before VF is written; VF is the
collision as 1 or 0; only the display, VF and `PC` change; out of range they fault and change nothing else (R136, R137, R64; D13, D17,
D36; log 1). -/
def Obligations.DrawInstructions : Prop :=
  ∀ (s : State) (x y z : Nibble), z ≠ 0 →
    (s.i.toNat + z.toNat - 1 ≤ 4095 → ∃ t, exec (.drw x y z) s = .next t ∧
      t = { s with v := t.v, display := t.display, pc := s.pc + 2 } ∧
      t.display = (s.display.draw (s.reg x).toNat (s.reg y).toNat (bytesAtI s z.toNat)).1 ∧
      t.vf = (if (s.display.draw (s.reg x).toNat (s.reg y).toNat (bytesAtI s z.toNat)).2 then 1 else 0) ∧
      ∀ r, r ≠ 15 → t.reg r = s.reg r) ∧
    (4095 < s.i.toNat + z.toNat - 1 → exec (.drw x y z) s = .next { s with halt := some (.memoryOutOfRange s.i.toNat) }) ∧
    (s.i.toNat + 31 ≤ 4095 → ∃ t, exec (.drw16 x y) s = .next t ∧
      t = { s with v := t.v, display := t.display, pc := s.pc + 2 } ∧
      t.display = (s.display.schipDraw (s.reg x).toNat (s.reg y).toNat (bytesAtI s 32)).1 ∧
      t.vf = (if (s.display.schipDraw (s.reg x).toNat (s.reg y).toNat (bytesAtI s 32)).2 then 1 else 0) ∧
      ∀ r, r ≠ 15 → t.reg r = s.reg r) ∧
    (4095 < s.i.toNat + 31 → exec (.drw16 x y) s = .next { s with halt := some (.memoryOutOfRange s.i.toNat) })

/-! ## Control flow (spec/41_control_flow.md) -/

/-- JP goes to nnn; JP V0 to nnn + V[0], which never wraps and may be past the last address (R154, R160; D10). Nothing else changes. -/
def Obligations.JumpTargets : Prop :=
  ∀ (s : State) (nnn : Addr),
    (∃ t, exec (.jp nnn) s = .next t ∧ OnlyPc s t ∧ t.pc.toNat = nnn.toNat) ∧
    (∃ t, exec (.jpV0 nnn) s = .next t ∧ OnlyPc s t ∧ t.pc.toNat = nnn.toNat + (s.reg 0).toNat)

/-- CALL pushes the address of its own word and jumps; at depth 16 it is StackOverflow and nothing else changes (R155, R28, R241; log 1). -/
def Obligations.CallPushesOwnAddress : Prop :=
  ∀ (s : State) (nnn : Addr),
    (s.sp.val < 16 → ∃ t, exec (.call nnn) s = .next t ∧ t = { s with pc := t.pc, sp := t.sp, stack := t.stack } ∧
      t.pc.toNat = nnn.toNat ∧ t.sp.val = s.sp.val + 1 ∧
      ∀ k : Fin 16, t.stack[k] = if k.val = s.sp.val then s.pc else s.stack[k]) ∧
    (s.sp.val = 16 → exec (.call nnn) s = .next { s with halt := some .stackOverflow })

/-- RET pops the address and goes to it plus 2; the slot keeps its value; on an empty stack it is StackUnderflow and nothing else changes
(R151). -/
def Obligations.RetPopsAddressPlus2 : Prop :=
  ∀ (fw : Option Word) (s : State), decodeWord fw 0x00EE = .ok .ret ∧
    (∀ k : Fin 16, s.sp.val = k.val + 1 → ∃ t, exec .ret s = .next t ∧ t = { s with pc := t.pc, sp := t.sp } ∧
      t.sp.val = k.val ∧ t.pc.toNat = (s.stack[k].toNat + 2) % 65536) ∧
    (s.sp = 0 → exec .ret s = .next { s with halt := some .stackUnderflow })

/-- A CALL followed by a RET resumes after the CALL word with the depth it had (R155, R151, R161). -/
def Obligations.CallThenRetResumes : Prop :=
  ∀ (s : State) (nnn : Addr), s.sp.val < 16 →
    ∃ t u, exec (.call nnn) s = .next t ∧ exec .ret t = .next u ∧ u.pc = s.pc + 2 ∧ u.sp = s.sp ∧
      u = { s with pc := u.pc, stack := u.stack } ∧ ∀ k : Fin 16, k.val ≠ s.sp.val → u.stack[k] = s.stack[k]

/-- The four skips: `PC` + 4 when the condition holds, + 2 when it does not; nothing else changes (R156 to R159, R108). -/
def Obligations.SkipsAddFourOrTwo : Prop :=
  ∀ (s : State) (x y : Nibble) (kk : Byte),
    (∃ t, exec (.seImm x kk) s = .next t ∧ OnlyPc s t ∧ t.pc = s.pc + (if (s.reg x).toNat = kk.toNat then 4 else 2)) ∧
    (∃ t, exec (.sneImm x kk) s = .next t ∧ OnlyPc s t ∧ t.pc = s.pc + (if (s.reg x).toNat = kk.toNat then 2 else 4)) ∧
    (∃ t, exec (.seReg x y) s = .next t ∧ OnlyPc s t ∧ t.pc = s.pc + (if (s.reg x).toNat = (s.reg y).toNat then 4 else 2)) ∧
    (∃ t, exec (.sneReg x y) s = .next t ∧ OnlyPc s t ∧ t.pc = s.pc + (if (s.reg x).toNat = (s.reg y).toNat then 2 else 4))

/-- EXIT and FREEZE report their signal and change nothing else, `PC` included; stepping again repeats the same signal
(R152, R153, R250; D20). That the report stands in a field of the state is log 2. -/
def Obligations.HostSignalsRepeat : Prop :=
  ∀ s : State, s.halt = none →
    (exec .exit s = .next { s with signal := some .exit } ∧ lastOutcome { s with signal := some .exit } = .signal .exit) ∧
    (exec .freeze s = .next { s with signal := some .freeze } ∧
      lastOutcome { s with signal := some .freeze } = .signal .freeze) ∧
    ∀ h : HostSignal, ReadyToStep s → s.pc.toNat ≤ 4094 →
      decodeWord s.params.freezeWord (wordAtPc s) = .ok (signalInstr h) →
      ∃ t, step s = .next t ∧ lastOutcome t = .signal h ∧ t = { s with signal := t.signal } ∧ step t = .next t

/-! ## Loads and the arithmetic/logic unit (spec/42_load_alu.md) -/

/-- LD Vx, kk (R172). -/
def Obligations.LdImmSetsRegister : Prop :=
  ∀ (fw : Option Word) (s : State) (x : Nibble) (kk : Byte), decodeWord fw (0x6#4 ++ x ++ kk) = .ok (.ldImm x kk) ∧
    ∃ t, exec (.ldImm x kk) s = .next t ∧ OnlyRegsAndPc s t ∧ t.pc = s.pc + 2 ∧ t.reg x = kk ∧ ∀ r, r ≠ x → t.reg r = s.reg r

/-- ADD Vx, kk wraps modulo 256 and writes no flag (R173; D7). -/
def Obligations.AddImmWraps : Prop :=
  ∀ (s : State) (x : Nibble) (kk : Byte),
    ∃ t, exec (.addImm x kk) s = .next t ∧ OnlyRegsAndPc s t ∧ t.pc = s.pc + 2 ∧
      (t.reg x).toNat = ((s.reg x).toNat + kk.toNat) % 256 ∧ ∀ r, r ≠ x → t.reg r = s.reg r

/-- LD, OR, AND, XOR between registers, bit by bit; VF and every other register are unchanged (R174 to R177; D7). -/
def Obligations.MovesAndLogic : Prop :=
  ∀ (s : State) (x y : Nibble),
    (∃ t, exec (.ldReg x y) s = .next t ∧ OnlyRegsAndPc s t ∧ t.pc = s.pc + 2 ∧
      t.reg x = s.reg y ∧ ∀ r, r ≠ x → t.reg r = s.reg r) ∧
    (∃ t, exec (.or x y) s = .next t ∧ OnlyRegsAndPc s t ∧ t.pc = s.pc + 2 ∧
      (∀ b < 8, (t.reg x).getLsbD b = ((s.reg x).getLsbD b || (s.reg y).getLsbD b)) ∧ ∀ r, r ≠ x → t.reg r = s.reg r) ∧
    (∃ t, exec (.and x y) s = .next t ∧ OnlyRegsAndPc s t ∧ t.pc = s.pc + 2 ∧
      (∀ b < 8, (t.reg x).getLsbD b = ((s.reg x).getLsbD b && (s.reg y).getLsbD b)) ∧ ∀ r, r ≠ x → t.reg r = s.reg r) ∧
    (∃ t, exec (.xor x y) s = .next t ∧ OnlyRegsAndPc s t ∧ t.pc = s.pc + 2 ∧
      (∀ b < 8, (t.reg x).getLsbD b = ((s.reg x).getLsbD b ^^ (s.reg y).getLsbD b)) ∧ ∀ r, r ≠ x → t.reg r = s.reg r)

/-- ADD Vx, Vy: the sum modulo 256, VF 1 on unsigned overflow else 0, the writes in the order of R171 (R178). -/
def Obligations.AddRegWrapsAndCarries : Prop :=
  ∀ (fw : Option Word) (s : State) (x y : Nibble), decodeWord fw (0x8#4 ++ x ++ y ++ 0x4#4) = .ok (.addReg x y) ∧
    ∃ t, exec (.addReg x y) s = .next t ∧ OnlyRegsAndPc s t ∧ t.pc = s.pc + 2 ∧
      WritesResultAndFlag s t x (((s.reg x).toNat + (s.reg y).toNat) % 256)
        (if (s.reg x).toNat + (s.reg y).toNat > 255 then 1 else 0)

/-- SUB and SUBN: the difference modulo 256, VF 1 when the minuend is strictly greater else 0; SUBN has the operands exchanged and the
same destination; the writes in the order of R171 (R179, R181). -/
def Obligations.SubtractFlagIsStrict : Prop :=
  ∀ (fw : Option Word) (s : State) (x y : Nibble),
    decodeWord fw (0x8#4 ++ x ++ y ++ 0x5#4) = .ok (.sub x y) ∧ decodeWord fw (0x8#4 ++ x ++ y ++ 0x7#4) = .ok (.subn x y) ∧
    (∃ t, exec (.sub x y) s = .next t ∧ OnlyRegsAndPc s t ∧ t.pc = s.pc + 2 ∧
      WritesResultAndFlag s t x (((s.reg x).toNat + 256 - (s.reg y).toNat) % 256)
        (if (s.reg x).toNat > (s.reg y).toNat then 1 else 0)) ∧
    (∃ t, exec (.subn x y) s = .next t ∧ OnlyRegsAndPc s t ∧ t.pc = s.pc + 2 ∧
      WritesResultAndFlag s t x (((s.reg y).toNat + 256 - (s.reg x).toNat) % 256)
        (if (s.reg y).toNat > (s.reg x).toNat then 1 else 0))

/-- SHR: the source (by `SHIFT_USES_VY`) halved, VF its bit 0 before the shift (R180). -/
def Obligations.ShrHalvesAndKeepsLowBit : Prop :=
  ∀ (fw : Option Word) (s : State) (x y : Nibble), decodeWord fw (0x8#4 ++ x ++ y ++ 0x6#4) = .ok (.shr x y) ∧
    ∃ t, exec (.shr x y) s = .next t ∧ OnlyRegsAndPc s t ∧ t.pc = s.pc + 2 ∧
      WritesResultAndFlag s t x ((if s.params.shiftUsesVy then s.reg y else s.reg x).toNat / 2)
        ((if s.params.shiftUsesVy then s.reg y else s.reg x).toNat % 2)

/-- SHL: the source doubled modulo 256, VF 128 or 0, never 1 (R184). -/
def Obligations.ShlDoublesAndFlags128 : Prop :=
  ∀ (fw : Option Word) (s : State) (x y : Nibble), decodeWord fw (0x8#4 ++ x ++ y ++ 0xE#4) = .ok (.shl x y) ∧
    ∃ t, exec (.shl x y) s = .next t ∧ OnlyRegsAndPc s t ∧ t.pc = s.pc + 2 ∧
      WritesResultAndFlag s t x (2 * (if s.params.shiftUsesVy then s.reg y else s.reg x).toNat % 256)
        (if (if s.params.shiftUsesVy then s.reg y else s.reg x).toNat ≥ 128 then 128 else 0)

/-! ## Address register, memory and the flag bank (spec/43_index_memory.md) -/

/-- LD I, ADD I (modulo 65536, no flag), LD F (digit * 5) and LD HF (80 + digit * 10, both unmasked): `I` alone and `PC` change
(R200 to R203; D9, D11). -/
def Obligations.AddressRegisterLoads : Prop :=
  ∀ (s : State) (nnn : Addr) (x : Nibble),
    (∃ t, exec (.ldI nnn) s = .next t ∧ t = { s with i := t.i, pc := s.pc + 2 } ∧ t.i.toNat = nnn.toNat) ∧
    (∃ t, exec (.addI x) s = .next t ∧ t = { s with i := t.i, pc := s.pc + 2 } ∧
      t.i.toNat = (s.i.toNat + (s.reg x).toNat) % 65536) ∧
    (∃ t, exec (.ldF x) s = .next t ∧ t = { s with i := t.i, pc := s.pc + 2 } ∧ t.i.toNat = (s.reg x).toNat * 5) ∧
    (∃ t, exec (.ldHf x) s = .next t ∧ t = { s with i := t.i, pc := s.pc + 2 } ∧ t.i.toNat = 80 + (s.reg x).toNat * 10)

/-- LD B stores the hundreds, tens and ones digits of Vx at I, I + 1, I + 2, or faults and stores nothing (R204). -/
def Obligations.LdBStoresDecimalDigits : Prop :=
  ∀ (fw : Option Word) (s : State) (x : Nibble), decodeWord fw (0xF#4 ++ x ++ 0x33#8) = .ok (.ldB x) ∧
    (s.mem.wf = true → s.i.toNat + 2 ≤ 4095 →
      ∃ t, exec (.ldB x) s = .next t ∧ t = { s with mem := t.mem, pc := s.pc + 2 } ∧ t.mem.wf = true ∧
        (t.mem.read s.i.toNat).toNat = (s.reg x).toNat / 100 ∧
        (t.mem.read (s.i.toNat + 1)).toNat = (s.reg x).toNat / 10 % 10 ∧
        (t.mem.read (s.i.toNat + 2)).toNat = (s.reg x).toNat % 10 ∧
        ∀ a, (a < s.i.toNat ∨ s.i.toNat + 2 < a) → t.mem.read a = s.mem.read a) ∧
    (4095 < s.i.toNat + 2 → exec (.ldB x) s = .next { s with halt := some (.memoryOutOfRange s.i.toNat) })

/-- LD [I], Vx stores V[0] to V[x] at I, I + 1, …; `I` is unchanged; out of range it faults and stores nothing (R205, R64; D8, D17). -/
def Obligations.LdMemStoresRegisters : Prop :=
  ∀ (s : State) (x : Nibble),
    (s.mem.wf = true → s.i.toNat + x.toNat ≤ 4095 →
      ∃ t, exec (.ldMemVx x) s = .next t ∧ t = { s with mem := t.mem, pc := s.pc + 2 } ∧ t.mem.wf = true ∧
        (∀ r : Nibble, r.toNat ≤ x.toNat → t.mem.read (s.i.toNat + r.toNat) = s.reg r) ∧
        ∀ a, (a < s.i.toNat ∨ s.i.toNat + x.toNat < a) → t.mem.read a = s.mem.read a) ∧
    (4095 < s.i.toNat + x.toNat → exec (.ldMemVx x) s = .next { s with halt := some (.memoryOutOfRange s.i.toNat) })

/-- LD Vx, [I] loads V[0] to V[x] from I, I + 1, …; the other registers and `I` are unchanged; out of range it faults and loads nothing
(R206, R64; D8, D17). -/
def Obligations.LdVxMemLoadsRegisters : Prop :=
  ∀ (s : State) (x : Nibble),
    (s.i.toNat + x.toNat ≤ 4095 →
      ∃ t, exec (.ldVxMem x) s = .next t ∧ OnlyRegsAndPc s t ∧ t.pc = s.pc + 2 ∧
        ∀ r : Nibble, t.reg r = if r.toNat ≤ x.toNat then s.mem.read (s.i.toNat + r.toNat) else s.reg r) ∧
    (4095 < s.i.toNat + x.toNat → exec (.ldVxMem x) s = .next { s with halt := some (.memoryOutOfRange s.i.toNat) })

/-- Registers stored and loaded back by the same block transfer are the registers that were stored, whatever happened to them between
(R205, R206, R68). -/
def Obligations.StoreThenLoadRegisters : Prop :=
  ∀ (s t u : State) (x : Nibble), s.mem.wf = true → s.i.toNat + x.toNat ≤ 4095 → exec (.ldMemVx x) s = .next t →
    u.mem = t.mem → u.i = s.i →
    ∃ w, exec (.ldVxMem x) u = .next w ∧ ∀ r : Nibble, r.toNat ≤ x.toNat → w.reg r = s.reg r

/-- LD R saves V[0] to V[x] in the flag bank for x at most 7; for a larger x it is FlagIndexOutOfRange(x) and no cell changes (R208). -/
def Obligations.LdRSavesFlagBank : Prop :=
  ∀ (fw : Option Word) (s : State) (x : Nibble), decodeWord fw (0xF#4 ++ x ++ 0x75#8) = .ok (.ldR x) ∧
    (x.toNat ≤ 7 → ∃ t, exec (.ldR x) s = .next t ∧ t = { s with fb := t.fb, pc := s.pc + 2 } ∧
      ∀ k : Fin 8, t.fb[k] = if k.val ≤ x.toNat then s.reg (BitVec.ofNat 4 k.val) else s.fb[k]) ∧
    (7 < x.toNat → exec (.ldR x) s = .next { s with halt := some (.flagIndexOutOfRange x) })

/-- LD Vx, R restores V[0] to V[x] from the flag bank for x at most 7; for a larger x it faults and no register changes (R209). -/
def Obligations.LdVxRRestoresFlagBank : Prop :=
  ∀ (fw : Option Word) (s : State) (x : Nibble), decodeWord fw (0xF#4 ++ x ++ 0x85#8) = .ok (.ldVxR x) ∧
    (x.toNat ≤ 7 → ∃ t, exec (.ldVxR x) s = .next t ∧ OnlyRegsAndPc s t ∧ t.pc = s.pc + 2 ∧
      (∀ k : Fin 8, k.val ≤ x.toNat → t.reg (BitVec.ofNat 4 k.val) = s.fb[k]) ∧
      ∀ r : Nibble, x.toNat < r.toNat → t.reg r = s.reg r) ∧
    (7 < x.toNat → exec (.ldVxR x) s = .next { s with halt := some (.flagIndexOutOfRange x) })

/-! ## Keyboard, timers, random (spec/44_keyboard_timers_random.md) -/

/-- SKP and SKNP skip on the state of the key V[x], 0 to 15; a larger value is KeyIndexOutOfRange and changes nothing else
(R220, R221; D12). -/
def Obligations.KeySkips : Prop :=
  ∀ (s : State) (x : Nibble),
    (∀ h : (s.reg x).toNat < 16,
      (∃ t, exec (.skp x) s = .next t ∧ OnlyPc s t ∧ t.pc = s.pc + (if s.keys[(s.reg x).toNat] = true then 4 else 2)) ∧
      (∃ t, exec (.sknp x) s = .next t ∧ OnlyPc s t ∧ t.pc = s.pc + (if s.keys[(s.reg x).toNat] = true then 2 else 4))) ∧
    (15 < (s.reg x).toNat →
      exec (.skp x) s = .next { s with halt := some (.keyIndexOutOfRange (s.reg x)) } ∧
      exec (.sknp x) s = .next { s with halt := some (.keyIndexOutOfRange (s.reg x)) })

/-- LD Vx, K: arm, spin at an unchanged `PC`, or consume the key (R224). -/
def Obligations.KeyWaitThreeArms : Prop :=
  ∀ (fw : Option Word) (s : State) (x : Nibble), decodeWord fw (0xF#4 ++ x ++ 0x0A#8) = .ok (.ldVxK x) ∧
    (s.wait = .noWait → exec (.ldVxK x) s = .next { s with wait := .waiting }) ∧
    (s.wait = .waiting → exec (.ldVxK x) s = .next s) ∧
    (∀ k, s.wait = .keyPressed k → ∃ t, exec (.ldVxK x) s = .next t ∧
      t = { s with v := t.v, wait := .noWait, pc := s.pc + 2 } ∧ (t.reg x).toNat = k.toNat ∧ ∀ r, r ≠ x → t.reg r = s.reg r)

/-- The whole wait: after an arming step and any number of spinning ones at an unchanged `PC`, one `toggle_key(k, true)` and one more step
put the key into Vx and advance `PC` once (R224, R35, R38). The steps and the call are the events of `inputs` (log 11). -/
def Obligations.KeyWaitCompletesAfterPress : Prop :=
  ∀ (s : State) (x : Nibble) (k n : Nat), s.halt = none → s.batch = .idle → s.pc.toNat ≤ 4094 → s.wait = .noWait → k < 16 →
    decodeWord s.params.freezeWord (wordAtPc s) = .ok (.ldVxK x) →
    s.inputs = List.replicate (n + 1) .advance ++ [.toggleKey k true, .advance] →
    (∀ m ≤ n, ∃ u : State, Sys2Proof.core.run (m + 1) s = .next u ∧ u.pc = s.pc ∧ u.wait = .waiting ∧ u.v = s.v) ∧
    ∃ t : State, Sys2Proof.core.run (n + 3) s = .next t ∧ (t.reg x).toNat = k ∧ t.pc = s.pc + 2 ∧ t.wait = .noWait ∧
      t.keys[k]? = some true ∧ t.inputs = []

/-- LD Vx, DT reads the delay timer; LD DT and LD ST write a timer; nothing else changes (R226 to R228). -/
def Obligations.TimerMoves : Prop :=
  ∀ (s : State) (x : Nibble),
    (∃ t, exec (.ldVxDt x) s = .next t ∧ OnlyRegsAndPc s t ∧ t.pc = s.pc + 2 ∧ t.reg x = s.dt ∧ ∀ r, r ≠ x → t.reg r = s.reg r) ∧
    exec (.ldDt x) s = .next { s with dt := s.reg x, pc := s.pc + 2 } ∧
    exec (.ldSt x) s = .next { s with st := s.reg x, pc := s.pc + 2 }

/-- RND puts the drawn byte ANDed with kk into Vx and draws exactly one byte: the next one of the injected source, a constant one, or a
free one, which leaves the source as it is (R231, R232; D29, log 10). -/
def Obligations.RndMasksOneDrawnByte : Prop :=
  ∀ (s : State) (x : Nibble) (kk : Byte),
    ∃ (t : State) (b : Byte), exec (.rnd x kk) s = .next t ∧ t.reg x = b &&& kk ∧ (∀ r, r ≠ x → t.reg r = s.reg r) ∧
      t = { s with v := t.v, pc := s.pc + 2, rndSource := t.rndSource, draws := s.draws + 1 } ∧
      (∀ c, s.rndSource = .constant c → b = c ∧ t.rndSource = .constant c) ∧
      (∀ c cs, s.rndSource = .script (c :: cs) → b = c ∧ t.rndSource = .script cs) ∧
      (s.rndSource = .free ∨ s.rndSource = .script [] → t.rndSource = s.rndSource) ∧
      (kk = 0 → t.reg x = 0)

/-! ## The host's calls (spec/60_exceptions.md, spec/10_state.md R38, spec/70_reset_and_hazards.md R295) -/

/-- The tick: a nonzero timer goes down by one, a zero timer stays zero, nothing else changes (R270; D23). -/
def Obligations.TickCountsDownToZero : Prop :=
  ∀ (s : State) (rest : List HostEvent), s.inputs = .tick :: rest →
    ∃ t, step s = .next t ∧ t = { s with dt := t.dt, st := t.st, inputs := rest } ∧
      t.dt.toNat = s.dt.toNat - 1 ∧ t.st.toNat = s.st.toNat - 1

/-- `toggle_key(k, pressed)` sets the key, and completes a wait when pressed while waiting; a key above 15 is refused (R38, R35; D12). -/
def Obligations.ToggleKeySetsAndWakes : Prop :=
  ∀ (s : State) (k : Nat) (pressed : Bool) (rest : List HostEvent), s.inputs = .toggleKey k pressed :: rest →
    (k < 16 → ∃ t, step s = .next t ∧ t = { s with keys := t.keys, wait := t.wait, inputs := rest } ∧
      (∀ j : Fin 16, t.keys[j] = if j.val = k then pressed else s.keys[j]) ∧
      (pressed = true → s.wait = .waiting → t.wait = .keyPressed (BitVec.ofNat 4 k)) ∧
      (pressed = false ∨ s.wait ≠ .waiting → t.wait = s.wait)) ∧
    (15 < k → step s = .refused (.keyAbove15 k))

/-- A clock's due count is the whole periods since LAST; LAST moves to now when there is at least one, and the remainder is thrown away
(R273). -/
def Obligations.DueRebasesToNow : Prop :=
  ∀ (c : Clock) (now : Nat), 0 < c.period → c.last ≤ now →
    (now < c.last + c.period → due c now = (0, c)) ∧
    (c.last + c.period ≤ now → (due c now).2 = { c with last := now } ∧
      (due c now).1 * c.period ≤ now - c.last ∧ now - c.last < ((due c now).1 + 1) * c.period)

/-- Setting the clock rate sets the rate, the period and the ratio at once and nothing else; below 1 Hz it is refused; an increment is a
set of the sum (R276, R272; D24, D25, D38). That an increment may be negative, and then lowers the rate, is the model's choice (log 21). -/
def Obligations.SetClockSetsAllThree : Prop :=
  ∀ (s : State) (rest : List HostEvent),
    (∀ hz, s.inputs = .setClock hz :: rest →
      (1 ≤ hz → step s = .next { s with
        clockHz := hz
        ratio := hz / 60
        cpu := { period := 1000000000 / hz, last := s.cpu.last }
        inputs := rest }) ∧
      (hz = 0 → step s = .refused .clockRateBelow1)) ∧
    (∀ d : Int, s.inputs = .incrementClock d :: rest →
      (∀ hz : Nat, (hz : Int) = s.clockHz + d → 1 ≤ hz → step s = .next { s with
        clockHz := hz
        ratio := hz / 60
        cpu := { period := 1000000000 / hz, last := s.cpu.last }
        inputs := rest }) ∧
      (s.clockHz + d < 1 → step s = .refused .clockRateBelow1))

/-- `cycle()`: all due ticks come first, then the CPU clock is asked and its due steps are to come (R274, R273; D26, log 12). With PERIOD
0 the count is free (log 13), so both periods are taken positive. A time before an earlier call's or before a clock's LAST is refused
(R268, R273, U19), and so is a call within a call (R258, R262; log 12). -/
def Obligations.CycleTicksThenSteps : Prop :=
  ∀ (s : State) (now : Nat), s.halt = none →
    (s.inputs = [.cycle now] → s.batch = .idle → s.driving ≠ some .externallyTimed → 0 < s.tmr.period → 0 < s.cpu.period →
      s.hostNow ≤ now → s.tmr.last ≤ now → s.cpu.last ≤ now →
      ∃ t : State, Sys2Proof.core.run ((now - s.tmr.last) / s.tmr.period + 2) s = .next t ∧
        t.dt.toNat = s.dt.toNat - (now - s.tmr.last) / s.tmr.period ∧
        t.st.toNat = s.st.toNat - (now - s.tmr.last) / s.tmr.period ∧
        t.batch = .steps ((now - s.cpu.last) / s.cpu.period) ∧
        t.tmr = (due s.tmr now).2 ∧ t.cpu = (due s.cpu now).2 ∧
        t = { s with
          dt := t.dt
          st := t.st
          tmr := t.tmr
          cpu := t.cpu
          batch := t.batch
          inputs := []
          driving := some .selfTimed
          hostNow := now }) ∧
    (∀ rest, s.inputs = .cycle now :: rest → s.batch = .idle → s.driving ≠ some .externallyTimed →
      now < s.hostNow ∨ now < s.tmr.last ∨ now < s.cpu.last → step s = .refused .clockBackwards) ∧
    (∀ rest, s.inputs = .cycle now :: rest → s.batch ≠ .idle → step s = .refused .callInProgress)

/-- `cycle_60Hz()`: one tick is made, RATIO steps are left to come, and no clock cell is touched (R275; log 12). Mixing the two driving
modes is refused (R268, U21), and so is a call within a call (R258, R262; log 12). -/
def Obligations.Cycle60HzTicksOnce : Prop :=
  ∀ (s : State) (rest : List HostEvent), s.halt = none →
    (s.inputs = .cycle60Hz :: rest → s.batch = .idle → s.driving ≠ some .selfTimed →
      ∃ t, step s = .next t ∧ t.dt.toNat = s.dt.toNat - 1 ∧ t.st.toNat = s.st.toNat - 1 ∧ t.batch = .steps s.ratio ∧
        t = { s with dt := t.dt, st := t.st, batch := t.batch, inputs := rest, driving := some .externallyTimed }) ∧
    (s.inputs = .cycle60Hz :: rest → s.batch = .idle → s.driving = some .selfTimed → step s = .refused .mixedDriving) ∧
    (∀ now, s.inputs = .cycle now :: rest → s.batch = .idle → s.driving = some .externallyTimed → step s = .refused .mixedDriving) ∧
    (s.inputs = .cycle60Hz :: rest → s.batch ≠ .idle → step s = .refused .callInProgress)

/-- The warm reset: the CPU-visible state is cleared; memory, keys, stack slots and the clock cells are kept (R295, R50; D22). That the
signal's record is cleared and the model's other fields are kept, but for the event taken off `inputs`, is log 15. -/
def Obligations.WarmResetKeepsMemoryAndKeys : Prop :=
  ∀ (s : State) (rest : List HostEvent), s.inputs = .reset :: rest →
    ∃ t, step s = .next t ∧ (∀ r, t.reg r = 0) ∧ t.i = 0 ∧ t.pc = 512 ∧ t.sp = 0 ∧ (∀ k : Fin 8, t.fb[k] = 0) ∧
      t.dt = 0 ∧ t.st = 0 ∧ t.wait = .noWait ∧ t.display.hires = false ∧ t.display.wf = true ∧
      (∀ r c, t.display.pix r c = false) ∧ t.halt = none ∧
      t.mem = s.mem ∧ t.keys = s.keys ∧ t.stack = s.stack ∧ t.clockHz = s.clockHz ∧ t.ratio = s.ratio ∧
      t.cpu = s.cpu ∧ t.tmr = s.tmr ∧ t.signal = none ∧ t.params = s.params ∧ t.rndSource = s.rndSource ∧ t.draws = s.draws ∧
      t.inputs = rest ∧ t.batch = s.batch ∧ t.driving = s.driving ∧ t.hostNow = s.hostNow

/-- No instruction reads `ST`, and only SKP and SKNP read `KEY`: with another value there every instruction does the same to everything
else (R30, R31, R34). -/
def Obligations.SoundAndKeysAreNotRead : Prop :=
  ∀ (i : Instr) (s : State) (st : Byte) (keys : Vector Bool 16),
    ((∀ x, i ≠ .ldSt x) → exec i { s with st := st } = mapNext (fun t => { t with st := st }) (exec i s)) ∧
    ((∀ x, i ≠ .skp x) → (∀ x, i ≠ .sknp x) →
      exec i { s with keys := keys } = mapNext (fun t => { t with keys := keys }) (exec i s))
end

