-- ==== Sys2Proof/Laws/Decode.lean ====
section
/-! SUPPORT. The fields of a word put together from its fields, and a word put together again from the fields read from it. -/

namespace Sys2Proof

/-! Format `w x y z` (30_encoding.md R93). -/

@[simp] theorem fieldW_xyz (w x y z : Nibble) : fieldW (w ++ x ++ y ++ z) = w := by
  apply BitVec.eq_of_getLsbD_eq
  intro k hk
  simp only [fieldW, BitVec.getLsbD_extractLsb', BitVec.getLsbD_append]
  interval_cases k <;> simp

@[simp] theorem fieldX_xyz (w x y z : Nibble) : fieldX (w ++ x ++ y ++ z) = x := by
  apply BitVec.eq_of_getLsbD_eq
  intro k hk
  simp only [fieldX, BitVec.getLsbD_extractLsb', BitVec.getLsbD_append]
  interval_cases k <;> simp

@[simp] theorem fieldY_xyz (w x y z : Nibble) : fieldY (w ++ x ++ y ++ z) = y := by
  apply BitVec.eq_of_getLsbD_eq
  intro k hk
  simp only [fieldY, BitVec.getLsbD_extractLsb', BitVec.getLsbD_append]
  interval_cases k <;> simp

@[simp] theorem fieldZ_xyz (w x y z : Nibble) : fieldZ (w ++ x ++ y ++ z) = z := by
  apply BitVec.eq_of_getLsbD_eq
  intro k hk
  simp only [fieldZ, BitVec.getLsbD_extractLsb', BitVec.getLsbD_append]
  interval_cases k <;> simp

/-! Format `w x kk` (R93). -/

@[simp] theorem fieldW_xkk (w x : Nibble) (kk : Byte) : fieldW (w ++ x ++ kk) = w := by
  apply BitVec.eq_of_getLsbD_eq
  intro k hk
  simp only [fieldW, BitVec.getLsbD_extractLsb', BitVec.getLsbD_append]
  interval_cases k <;> simp

@[simp] theorem fieldX_xkk (w x : Nibble) (kk : Byte) : fieldX (w ++ x ++ kk) = x := by
  apply BitVec.eq_of_getLsbD_eq
  intro k hk
  simp only [fieldX, BitVec.getLsbD_extractLsb', BitVec.getLsbD_append]
  interval_cases k <;> simp

@[simp] theorem fieldKK_xkk (w x : Nibble) (kk : Byte) : fieldKK (w ++ x ++ kk) = kk := by
  apply BitVec.eq_of_getLsbD_eq
  intro k hk
  simp only [fieldKK, BitVec.getLsbD_extractLsb', BitVec.getLsbD_append]
  interval_cases k <;> simp

/-! Format `w nnn` (R93). -/

@[simp] theorem fieldW_nnn (w : Nibble) (nnn : Addr) : fieldW (w ++ nnn) = w := by
  apply BitVec.eq_of_getLsbD_eq
  intro k hk
  simp only [fieldW, BitVec.getLsbD_extractLsb', BitVec.getLsbD_append]
  interval_cases k <;> simp

@[simp] theorem fieldNNN_nnn (w : Nibble) (nnn : Addr) : fieldNNN (w ++ nnn) = nnn := by
  apply BitVec.eq_of_getLsbD_eq
  intro k hk
  simp only [fieldNNN, BitVec.getLsbD_extractLsb', BitVec.getLsbD_append]
  interval_cases k <;> simp

/-! Format `00Cz` (R93). -/

@[simp] theorem fieldZ_scd (z : Nibble) : fieldZ (0x00C#12 ++ z) = z := by
  apply BitVec.eq_of_getLsbD_eq
  intro k hk
  simp only [fieldZ, BitVec.getLsbD_extractLsb', BitVec.getLsbD_append]
  interval_cases k <;> simp

@[simp] theorem fieldW_scd (z : Nibble) : fieldW (0x00C#12 ++ z) = 0 := by decide +revert

@[simp] theorem fieldXY_scd (z : Nibble) : fieldXY (0x00C#12 ++ z) = 0x0C := by decide +revert

/-- The two bytes of a word, put together again, are the word (20_memory.md R61). -/
@[simp] theorem wordOfBytes_bytesOfWord (op : Word) : wordOfBytes (op.extractLsb' 8 8) (op.extractLsb' 0 8) = op := by
  apply BitVec.eq_of_getLsbD_eq
  intro k hk
  simp only [wordOfBytes, BitVec.getLsbD_append, BitVec.getLsbD_extractLsb']
  interval_cases k <;> simp

/-- A word is its four nibbles. -/
theorem word_eq_xyz (op : Word) : fieldW op ++ fieldX op ++ fieldY op ++ fieldZ op = op := by
  apply BitVec.eq_of_getLsbD_eq
  intro k hk
  simp only [fieldW, fieldX, fieldY, fieldZ, BitVec.getLsbD_append, BitVec.getLsbD_extractLsb']
  interval_cases k <;> simp

/-- A word is its high nibble, `x` and `kk`. -/
theorem word_eq_xkk (op : Word) : fieldW op ++ fieldX op ++ fieldKK op = op := by
  apply BitVec.eq_of_getLsbD_eq
  intro k hk
  simp only [fieldW, fieldX, fieldKK, BitVec.getLsbD_append, BitVec.getLsbD_extractLsb']
  interval_cases k <;> simp

/-- A word is its high nibble and `nnn`. -/
theorem word_eq_nnn (op : Word) : fieldW op ++ fieldNNN op = op := by
  apply BitVec.eq_of_getLsbD_eq
  intro k hk
  simp only [fieldW, fieldNNN, BitVec.getLsbD_append, BitVec.getLsbD_extractLsb']
  interval_cases k <;> simp

/-- The fields of a word as numbers. -/
theorem fieldW_toNat (op : Word) : (fieldW op).toNat = op.toNat / 4096 := by
  have := op.isLt
  simp [fieldW, BitVec.extractLsb'_toNat, Nat.shiftRight_eq_div_pow]; omega

theorem fieldZ_toNat (op : Word) : (fieldZ op).toNat = op.toNat % 16 := by
  simp [fieldZ, BitVec.extractLsb'_toNat]

theorem fieldKK_toNat (op : Word) : (fieldKK op).toNat = op.toNat % 256 := by
  simp [fieldKK, BitVec.extractLsb'_toNat]

theorem fieldNNN_toNat (op : Word) : (fieldNNN op).toNat = op.toNat % 4096 := by
  simp [fieldNNN, BitVec.extractLsb'_toNat]

theorem fieldXY_toNat (op : Word) : (fieldXY op).toNat = op.toNat / 16 % 256 := by
  simp [fieldXY, BitVec.extractLsb'_toNat, Nat.shiftRight_eq_div_pow]

end Sys2Proof
end

