-- ==== Sys2Proof/Laws/Display.lean ====
section
/-! SUPPORT. The laws of the display engine: what a pixel write, a scroll and one row of a blit do, and that every primitive keeps the grid at exactly W*H pixels. -/

namespace Sys2Proof.Machine

theorem Display.wf_iff (d : Display) :
    d.wf = true ↔ d.rows.length = heightOf d.hires ∧ ∀ row ∈ d.rows, row.length = widthOf d.hires := by
  simp only [Display.wf, Bool.and_eq_true, decide_eq_true_eq, List.all_eq_true]
  exact Iff.rfl

theorem widthOf_pos (hires : Bool) : 0 < widthOf hires := by cases hires <;> decide

theorem heightOf_pos (hires : Bool) : 0 < heightOf hires := by cases hires <;> decide

theorem Display.blank_wf (hires : Bool) : (Display.blank hires).wf = true := by cases hires <;> decide

@[simp] theorem Display.blank_hires (hires : Bool) : (Display.blank hires).hires = hires := rfl

@[simp] theorem Display.pix_blank (hires : Bool) (r c : Nat) : (Display.blank hires).pix r c = false := by
  unfold Display.pix Display.blank
  simp only [List.getD_eq_getElem?_getD, List.getElem?_replicate]
  split
  · simp only [Option.getD_some, List.getElem?_replicate]; split <;> rfl
  · rfl

@[simp] theorem Display.clear_hires (d : Display) : d.clear.hires = d.hires := rfl

theorem Display.clear_wf (d : Display) : d.clear.wf = true := Display.blank_wf _

@[simp] theorem Display.setHires_hires (d : Display) (b : Bool) : (d.setHires b).hires = b := by
  unfold Display.setHires; split <;> simp_all

theorem Display.setHires_wf {d : Display} (h : d.wf = true) (b : Bool) : (d.setHires b).wf = true := by
  unfold Display.setHires; split
  · exact h
  · exact Display.blank_wf b

@[simp] theorem Display.setPix_hires (d : Display) (r c : Nat) (b : Bool) : (d.setPix r c b).hires = d.hires := rfl

theorem Display.setPix_wf {d : Display} (h : d.wf = true) (r c : Nat) (b : Bool) : (d.setPix r c b).wf = true := by
  rw [Display.wf_iff] at h ⊢
  refine ⟨by simpa [Display.setPix] using h.1, fun row hrow => ?_⟩
  obtain ⟨k, hk, rfl⟩ := List.mem_iff_getElem.1 hrow
  simp only [Display.setPix, List.getElem_modify]
  simp only [Display.setPix, List.length_modify] at hk
  split
  · simpa using h.2 _ (List.getElem_mem hk)
  · exact h.2 _ (List.getElem_mem hk)

/-- Reading a pixel after a pixel write inside the grid. -/
theorem Display.pix_setPix {d : Display} (h : d.wf = true) {r c : Nat} (hr : r < heightOf d.hires) (hc : c < widthOf d.hires)
    (b : Bool) (r' c' : Nat) : (d.setPix r c b).pix r' c' = if r' = r ∧ c' = c then b else d.pix r' c' := by
  rw [Display.wf_iff] at h
  unfold Display.pix Display.setPix
  simp only [List.getD_eq_getElem?_getD, List.getElem?_modify]
  by_cases hrr : r' = r
  · subst hrr
    have hlen : r' < d.rows.length := by omega
    have hrow : (d.rows[r']).length = widthOf d.hires := h.2 _ (List.getElem_mem hlen)
    simp only [List.getElem?_eq_getElem hlen, if_true, Option.getD_some, true_and]
    by_cases hcc : c = c'
    · subst hcc; simp [hrow, hc]
    · simp [hcc, Ne.symm hcc]
  · simp [hrr, Ne.symm hrr]

/-- A place outside the grid reads false. -/
theorem Display.pix_outside {d : Display} (h : d.wf = true) {r c : Nat} (ho : heightOf d.hires ≤ r ∨ widthOf d.hires ≤ c) :
    d.pix r c = false := by
  rw [Display.wf_iff] at h
  unfold Display.pix
  simp only [List.getD_eq_getElem?_getD]
  by_cases hr : r < d.rows.length
  · have hrow : (d.rows[r]).length = widthOf d.hires := h.2 _ (List.getElem_mem hr)
    rw [List.getElem?_eq_getElem hr, Option.getD_some, List.getElem?_eq_none (by omega)]; rfl
  · rw [List.getElem?_eq_none (by omega : d.rows.length ≤ r)]; rfl

/-- Two grids of one mode with the same pixels are equal as data. -/
theorem Display.ext_pix {d e : Display} (hd : d.wf = true) (he : e.wf = true) (hm : d.hires = e.hires)
    (h : ∀ r < heightOf d.hires, ∀ c < widthOf d.hires, d.pix r c = e.pix r c) : d = e := by
  rw [Display.wf_iff] at hd he
  obtain ⟨dh, dr⟩ := d
  obtain ⟨eh, er⟩ := e
  simp only at hm hd he h
  subst hm
  congr 1
  refine List.ext_getElem (by omega) fun r h1 h2 => ?_
  have l1 : (dr[r]).length = widthOf dh := hd.2 _ (List.getElem_mem h1)
  have l2 : (er[r]).length = widthOf dh := he.2 _ (List.getElem_mem h2)
  refine List.ext_getElem (by omega) fun c h3 h4 => ?_
  have := h r (by omega) c (by omega)
  simpa [Display.pix, h1, h2, h3, h4] using this

@[simp] theorem Display.scrollLeft_hires (d : Display) : d.scrollLeft.hires = d.hires := rfl
@[simp] theorem Display.scrollRight_hires (d : Display) : d.scrollRight.hires = d.hires := rfl
@[simp] theorem Display.scrollDown_hires (d : Display) (n : Nat) : (d.scrollDown n).hires = d.hires := rfl

theorem Display.scrollStep_le (d : Display) : d.scrollStep ≤ widthOf d.hires := by
  unfold Display.scrollStep widthOf; split <;> simp

theorem Display.scrollLeft_wf {d : Display} (h : d.wf = true) : d.scrollLeft.wf = true := by
  rw [Display.wf_iff] at h ⊢
  refine ⟨by simpa [Display.scrollLeft] using h.1, fun row hrow => ?_⟩
  simp only [Display.scrollLeft, List.mem_map] at hrow
  obtain ⟨old, hold, rfl⟩ := hrow
  have hs := d.scrollStep_le
  simp [h.2 _ hold]; omega

theorem Display.scrollRight_wf {d : Display} (h : d.wf = true) : d.scrollRight.wf = true := by
  rw [Display.wf_iff] at h ⊢
  refine ⟨by simpa [Display.scrollRight] using h.1, fun row hrow => ?_⟩
  simp only [Display.scrollRight, List.mem_map] at hrow
  obtain ⟨old, hold, rfl⟩ := hrow
  have hs := d.scrollStep_le
  simp [h.2 _ hold, Display.width]; omega

theorem Display.downStep_le (d : Display) {n : Nat} (hn : n < 16) : d.downStep n ≤ heightOf d.hires := by
  unfold Display.downStep heightOf; split <;> omega

theorem Display.scrollDown_wf {d : Display} (h : d.wf = true) {n : Nat} (hn : n < 16) : (d.scrollDown n).wf = true := by
  rw [Display.wf_iff] at h ⊢
  have hs := d.downStep_le hn
  refine ⟨by simp [Display.scrollDown, h.1, Display.height]; omega, fun row hrow => ?_⟩
  simp only [Display.scrollDown, List.mem_append, List.mem_replicate] at hrow
  rcases hrow with ⟨-, rfl⟩ | hrow
  · simp [Display.width]
  · exact h.2 _ (List.mem_of_mem_take hrow)

@[simp] theorem Display.blitBit_hires (d : Display) (r c : Nat) (bit : Bool) : (d.blitBit r c bit).1.hires = d.hires := rfl

@[simp] theorem Display.blitBits_hires (bits : List Bool) (d : Display) (r x0 j : Nat) :
    (d.blitBits r x0 j bits).1.hires = d.hires := by
  induction bits generalizing d j with
  | nil => rfl
  | cons bit rest ih => simp [Display.blitBits, ih]

theorem Display.blitBits_wf {d : Display} (h : d.wf = true) (r x0 j : Nat) (bits : List Bool) :
    (d.blitBits r x0 j bits).1.wf = true := by
  induction bits generalizing d j with
  | nil => exact h
  | cons bit rest ih => exact ih (Display.setPix_wf h _ _ _) _

@[simp] theorem Display.draw_hires (bytes : List Byte) (d : Display) (x0 y0 : Nat) : (d.draw x0 y0 bytes).1.hires = d.hires := by
  induction bytes generalizing d y0 with
  | nil => rfl
  | cons b rest ih => simp [Display.draw, ih]

theorem Display.draw_wf {d : Display} (h : d.wf = true) (x0 y0 : Nat) (bytes : List Byte) : (d.draw x0 y0 bytes).1.wf = true := by
  induction bytes generalizing d y0 with
  | nil => exact h
  | cons b rest ih => exact ih (Display.blitBits_wf h _ _ _ _) _

/-- The 16x16 blit keeps the mode and the grid: a recursion over the row pairs. -/
theorem Display.schipDraw_keeps (n : Nat) (bytes : List Byte) (hn : bytes.length ≤ n) (d : Display) (x0 y0 : Nat) :
    (d.schipDraw x0 y0 bytes).1.hires = d.hires ∧ (d.wf = true → (d.schipDraw x0 y0 bytes).1.wf = true) := by
  induction n generalizing bytes d y0 with
  | zero => cases bytes with
    | nil => exact ⟨rfl, id⟩
    | cons => simp at hn
  | succ n ih =>
    match bytes with
    | [] => exact ⟨rfl, id⟩
    | [_] => exact ⟨rfl, id⟩
    | left :: right :: rest =>
      simp only [List.length_cons] at hn
      simp only [Display.schipDraw]
      obtain ⟨h1, h2⟩ := ih rest (by omega)
        (if d.hires then (d.draw x0 y0 [left]).1.draw (x0 + 8) y0 [right] else ((d.draw x0 y0 [left]).1, false)).1 (y0 + 1)
      refine ⟨by rw [h1]; split <;> simp, fun h => h2 ?_⟩
      split
      · exact Display.draw_wf (Display.draw_wf h _ _ _) _ _ _
      · exact Display.draw_wf h _ _ _

@[simp] theorem Display.schipDraw_hires (d : Display) (x0 y0 : Nat) (bytes : List Byte) :
    (d.schipDraw x0 y0 bytes).1.hires = d.hires := (Display.schipDraw_keeps _ bytes le_rfl d x0 y0).1

theorem Display.schipDraw_wf {d : Display} (h : d.wf = true) (x0 y0 : Nat) (bytes : List Byte) :
    (d.schipDraw x0 y0 bytes).1.wf = true := (Display.schipDraw_keeps _ bytes le_rfl d x0 y0).2 h

/-- What `scroll_right()` does to a pixel. -/
theorem Display.pix_scrollRight {d : Display} (h : d.wf = true) {r c : Nat} (hr : r < d.height) (hc : c < d.width) :
    d.scrollRight.pix r c = if d.scrollStep ≤ c then d.pix r (c - d.scrollStep) else false := by
  have hl := (Display.wf_iff _).1 h
  have hr' : r < d.rows.length := by rw [hl.1]; exact hr
  simp only [Display.scrollRight, Display.pix]
  generalize d.scrollStep = n
  simp only [List.getD_eq_getElem?_getD, List.getElem?_map, List.getElem?_eq_getElem hr', Option.map_some, Option.getD_some]
  by_cases hn : n ≤ c
  · rw [if_pos hn, List.getElem?_append_right (by simpa using hn)]
    simp [List.getElem?_take]
    rw [if_pos (by omega)]
  · rw [if_neg hn, List.getElem?_append_left (by simp; omega)]
    simp only [List.getElem?_replicate]
    split <;> rfl

/-- What `scroll_left()` does to a pixel. -/
theorem Display.pix_scrollLeft {d : Display} (h : d.wf = true) {r c : Nat} (hr : r < d.height) (hc : c < d.width) :
    d.scrollLeft.pix r c = if c + d.scrollStep ≤ d.width - 1 then d.pix r (c + d.scrollStep) else false := by
  have hl := (Display.wf_iff _).1 h
  have hr' : r < d.rows.length := by rw [hl.1]; exact hr
  have h3 := hl.2 _ (List.getElem_mem hr')
  have h4 := d.scrollStep_le
  have hw : d.width = widthOf d.hires := rfl
  simp only [Display.scrollLeft, Display.pix]
  generalize d.scrollStep = n at *
  simp only [List.getD_eq_getElem?_getD, List.getElem?_map, List.getElem?_eq_getElem hr', Option.map_some, Option.getD_some]
  by_cases hn : c + n ≤ d.width - 1
  · rw [if_pos hn, List.getElem?_append_left (by simp; omega)]
    simp [Nat.add_comm]
  · rw [if_neg hn, List.getElem?_append_right (by simp; omega)]
    simp only [List.getElem?_replicate]
    split <;> rfl

/-- Some bit of a sprite row, from column `x0` on, falls on column c and is 1. -/
def RowBit (W x0 : Nat) (bits : List Bool) (c : Nat) : Prop :=
  ∃ k < bits.length, (x0 + k) % W = c ∧ bits.getD k false = true

theorem rowBit_cons (W x0 : Nat) (b : Bool) (rest : List Bool) (c : Nat) :
    RowBit W x0 (b :: rest) c ↔ (x0 % W = c ∧ b = true) ∨ RowBit W (x0 + 1) rest c := by
  constructor
  · rintro ⟨k, hk, h1, h2⟩
    cases k with
    | zero => exact .inl ⟨h1, h2⟩
    | succ k => exact .inr ⟨k, by simpa using hk, by rw [← h1]; congr 1; omega, by simpa using h2⟩
  · rintro (⟨h1, h2⟩ | ⟨k, hk, h1, h2⟩)
    · exact ⟨0, by simp, h1, h2⟩
    · exact ⟨k + 1, by simpa using hk, by rw [← h1]; congr 1; omega, by simpa using h2⟩

theorem add_mod_ne {W x k : Nat} (h : k + 1 < W) : (x + 1 + k) % W ≠ x % W := by
  intro e
  have := (Nat.ModEq.add_left_cancel' x (show x + (1 + k) ≡ x + 0 [MOD W] by rw [← Nat.add_assoc]; exact e))
  unfold Nat.ModEq at this
  rw [Nat.mod_eq_of_lt (by omega), Nat.mod_eq_of_lt (by omega)] at this
  omega

theorem rowBit_fresh {W x0 : Nat} {rest : List Bool} (h : rest.length < W) : ¬ RowBit W (x0 + 1) rest (x0 % W) := by
  rintro ⟨k, hk, h1, -⟩
  exact add_mod_ne (by omega) h1

/-- What one row of a blit does. -/
theorem Display.blitBits_spec (bits : List Bool) {d : Display} (h : d.wf = true) {r : Nat} (hr : r < heightOf d.hires) (x0 j : Nat)
    (hlen : bits.length ≤ widthOf d.hires) :
    (∀ r' c', ((d.blitBits r x0 j bits).1.pix r' c' = true ↔
      Xor (d.pix r' c' = true) (r' = r ∧ RowBit (widthOf d.hires) (x0 + j) bits c'))) ∧
    ((d.blitBits r x0 j bits).2 = true ↔ ∃ c, d.pix r c = true ∧ RowBit (widthOf d.hires) (x0 + j) bits c) := by
  induction bits generalizing d j with
  | nil => 
    have : ∀ W x c, ¬ RowBit W x [] c := by rintro W x c ⟨k, hk, -⟩; simp at hk
    simp [Display.blitBits, this, xor_def]
  | cons b rest ih =>
    simp only [List.length_cons] at hlen
    have hw := widthOf_pos d.hires
    have hc0 : (x0 + j) % widthOf d.hires < widthOf d.hires := Nat.mod_lt _ hw
    have hwd : (d.blitBit r ((x0 + j) % d.width) b).1.wf = true := Display.setPix_wf h _ _ _
    obtain ⟨ih1, ih2⟩ := ih hwd (by simpa using hr) (j + 1) (by simp; omega)
    have hp : ∀ r' c', (d.blitBit r ((x0 + j) % d.width) b).1.pix r' c' = if r' = r ∧ c' = (x0 + j) % d.width then (d.pix r ((x0 + j) % d.width) ^^ b) else d.pix r' c' := fun r' c' => Display.pix_setPix h hr hc0 _ r' c'
    have hfresh := @rowBit_fresh (widthOf d.hires) (x0 + j) rest (by omega)
    have hwe : d.width = widthOf d.hires := rfl
    simp only [Display.blitBits]
    rw [Display.blitBit_hires] at ih1 ih2
    constructor
    · intro r' c'
      rw [ih1, hp, rowBit_cons]
      rw [hwe, ← Nat.add_assoc] at *
      by_cases e : r' = r ∧ c' = (x0 + j) % widthOf d.hires
      · obtain ⟨rfl, rfl⟩ := e
        simp only [and_self, if_true, hfresh, and_false, or_false, true_and]
        cases d.pix r' ((x0 + j) % widthOf d.hires) <;> cases b <;> simp [xor_def]
      · rw [if_neg e]
        by_cases e1 : r' = r
        · have : ¬ (x0 + j) % widthOf d.hires = c' := fun e2 => e ⟨e1, e2.symm⟩
          simp [this, xor_def]
        · simp [e1, xor_def]
    · rw [Bool.or_eq_true, ih2]
      simp only [rowBit_cons]
      simp only [hp]
      rw [hwe, ← Nat.add_assoc] at *
      constructor
      · rintro (h1 | ⟨c, h1, h2⟩)
        · simp only [Display.blitBit, Bool.and_eq_true] at h1
          exact ⟨_, h1.1, .inl ⟨rfl, h1.2⟩⟩
        · have : c ≠ (x0 + j) % widthOf d.hires := by rintro rfl; exact hfresh h2
          simp only [this, and_false, if_false] at h1
          exact ⟨c, h1, .inr h2⟩
      · rintro ⟨c, h1, ⟨rfl, h2⟩ | h2⟩
        · left; simp [Display.blitBit, h1, h2]
        · right
          have : c ≠ (x0 + j) % widthOf d.hires := by rintro rfl; exact hfresh h2
          exact ⟨c, by simp [this, h1], h2⟩

end Sys2Proof.Machine
end

