-- ==== Sys2Proof/Laws/State.lean ====
section
/-! SUPPORT. One lemma per field per update of the state, so that no proof unfolds a record update. -/

namespace Sys2Proof.Machine

variable (s : State)

/-! `setReg` changes only v. -/

@[simp] theorem State.setReg_i (x : Nibble) (b : Byte) : (s.setReg x b).i = s.i := rfl
@[simp] theorem State.setReg_pc (x : Nibble) (b : Byte) : (s.setReg x b).pc = s.pc := rfl
@[simp] theorem State.setReg_sp (x : Nibble) (b : Byte) : (s.setReg x b).sp = s.sp := rfl
@[simp] theorem State.setReg_stack (x : Nibble) (b : Byte) : (s.setReg x b).stack = s.stack := rfl
@[simp] theorem State.setReg_fb (x : Nibble) (b : Byte) : (s.setReg x b).fb = s.fb := rfl
@[simp] theorem State.setReg_dt (x : Nibble) (b : Byte) : (s.setReg x b).dt = s.dt := rfl
@[simp] theorem State.setReg_st (x : Nibble) (b : Byte) : (s.setReg x b).st = s.st := rfl
@[simp] theorem State.setReg_mem (x : Nibble) (b : Byte) : (s.setReg x b).mem = s.mem := rfl
@[simp] theorem State.setReg_keys (x : Nibble) (b : Byte) : (s.setReg x b).keys = s.keys := rfl
@[simp] theorem State.setReg_wait (x : Nibble) (b : Byte) : (s.setReg x b).wait = s.wait := rfl
@[simp] theorem State.setReg_display (x : Nibble) (b : Byte) : (s.setReg x b).display = s.display := rfl
@[simp] theorem State.setReg_halt (x : Nibble) (b : Byte) : (s.setReg x b).halt = s.halt := rfl
@[simp] theorem State.setReg_clockHz (x : Nibble) (b : Byte) : (s.setReg x b).clockHz = s.clockHz := rfl
@[simp] theorem State.setReg_ratio (x : Nibble) (b : Byte) : (s.setReg x b).ratio = s.ratio := rfl
@[simp] theorem State.setReg_cpu (x : Nibble) (b : Byte) : (s.setReg x b).cpu = s.cpu := rfl
@[simp] theorem State.setReg_tmr (x : Nibble) (b : Byte) : (s.setReg x b).tmr = s.tmr := rfl
@[simp] theorem State.setReg_signal (x : Nibble) (b : Byte) : (s.setReg x b).signal = s.signal := rfl
@[simp] theorem State.setReg_params (x : Nibble) (b : Byte) : (s.setReg x b).params = s.params := rfl
@[simp] theorem State.setReg_rndSource (x : Nibble) (b : Byte) : (s.setReg x b).rndSource = s.rndSource := rfl
@[simp] theorem State.setReg_draws (x : Nibble) (b : Byte) : (s.setReg x b).draws = s.draws := rfl
@[simp] theorem State.setReg_inputs (x : Nibble) (b : Byte) : (s.setReg x b).inputs = s.inputs := rfl
@[simp] theorem State.setReg_batch (x : Nibble) (b : Byte) : (s.setReg x b).batch = s.batch := rfl
@[simp] theorem State.setReg_driving (x : Nibble) (b : Byte) : (s.setReg x b).driving = s.driving := rfl
@[simp] theorem State.setReg_hostNow (x : Nibble) (b : Byte) : (s.setReg x b).hostNow = s.hostNow := rfl

/-! `setVf` changes only v. -/

@[simp] theorem State.setVf_i (b : Byte) : (s.setVf b).i = s.i := rfl
@[simp] theorem State.setVf_pc (b : Byte) : (s.setVf b).pc = s.pc := rfl
@[simp] theorem State.setVf_sp (b : Byte) : (s.setVf b).sp = s.sp := rfl
@[simp] theorem State.setVf_stack (b : Byte) : (s.setVf b).stack = s.stack := rfl
@[simp] theorem State.setVf_fb (b : Byte) : (s.setVf b).fb = s.fb := rfl
@[simp] theorem State.setVf_dt (b : Byte) : (s.setVf b).dt = s.dt := rfl
@[simp] theorem State.setVf_st (b : Byte) : (s.setVf b).st = s.st := rfl
@[simp] theorem State.setVf_mem (b : Byte) : (s.setVf b).mem = s.mem := rfl
@[simp] theorem State.setVf_keys (b : Byte) : (s.setVf b).keys = s.keys := rfl
@[simp] theorem State.setVf_wait (b : Byte) : (s.setVf b).wait = s.wait := rfl
@[simp] theorem State.setVf_display (b : Byte) : (s.setVf b).display = s.display := rfl
@[simp] theorem State.setVf_halt (b : Byte) : (s.setVf b).halt = s.halt := rfl
@[simp] theorem State.setVf_clockHz (b : Byte) : (s.setVf b).clockHz = s.clockHz := rfl
@[simp] theorem State.setVf_ratio (b : Byte) : (s.setVf b).ratio = s.ratio := rfl
@[simp] theorem State.setVf_cpu (b : Byte) : (s.setVf b).cpu = s.cpu := rfl
@[simp] theorem State.setVf_tmr (b : Byte) : (s.setVf b).tmr = s.tmr := rfl
@[simp] theorem State.setVf_signal (b : Byte) : (s.setVf b).signal = s.signal := rfl
@[simp] theorem State.setVf_params (b : Byte) : (s.setVf b).params = s.params := rfl
@[simp] theorem State.setVf_rndSource (b : Byte) : (s.setVf b).rndSource = s.rndSource := rfl
@[simp] theorem State.setVf_draws (b : Byte) : (s.setVf b).draws = s.draws := rfl
@[simp] theorem State.setVf_inputs (b : Byte) : (s.setVf b).inputs = s.inputs := rfl
@[simp] theorem State.setVf_batch (b : Byte) : (s.setVf b).batch = s.batch := rfl
@[simp] theorem State.setVf_driving (b : Byte) : (s.setVf b).driving = s.driving := rfl
@[simp] theorem State.setVf_hostNow (b : Byte) : (s.setVf b).hostNow = s.hostNow := rfl

/-! `setI` changes only i. -/

@[simp] theorem State.setI_v (a : Word) : (s.setI a).v = s.v := rfl
@[simp] theorem State.setI_pc (a : Word) : (s.setI a).pc = s.pc := rfl
@[simp] theorem State.setI_sp (a : Word) : (s.setI a).sp = s.sp := rfl
@[simp] theorem State.setI_stack (a : Word) : (s.setI a).stack = s.stack := rfl
@[simp] theorem State.setI_fb (a : Word) : (s.setI a).fb = s.fb := rfl
@[simp] theorem State.setI_dt (a : Word) : (s.setI a).dt = s.dt := rfl
@[simp] theorem State.setI_st (a : Word) : (s.setI a).st = s.st := rfl
@[simp] theorem State.setI_mem (a : Word) : (s.setI a).mem = s.mem := rfl
@[simp] theorem State.setI_keys (a : Word) : (s.setI a).keys = s.keys := rfl
@[simp] theorem State.setI_wait (a : Word) : (s.setI a).wait = s.wait := rfl
@[simp] theorem State.setI_display (a : Word) : (s.setI a).display = s.display := rfl
@[simp] theorem State.setI_halt (a : Word) : (s.setI a).halt = s.halt := rfl
@[simp] theorem State.setI_clockHz (a : Word) : (s.setI a).clockHz = s.clockHz := rfl
@[simp] theorem State.setI_ratio (a : Word) : (s.setI a).ratio = s.ratio := rfl
@[simp] theorem State.setI_cpu (a : Word) : (s.setI a).cpu = s.cpu := rfl
@[simp] theorem State.setI_tmr (a : Word) : (s.setI a).tmr = s.tmr := rfl
@[simp] theorem State.setI_signal (a : Word) : (s.setI a).signal = s.signal := rfl
@[simp] theorem State.setI_params (a : Word) : (s.setI a).params = s.params := rfl
@[simp] theorem State.setI_rndSource (a : Word) : (s.setI a).rndSource = s.rndSource := rfl
@[simp] theorem State.setI_draws (a : Word) : (s.setI a).draws = s.draws := rfl
@[simp] theorem State.setI_inputs (a : Word) : (s.setI a).inputs = s.inputs := rfl
@[simp] theorem State.setI_batch (a : Word) : (s.setI a).batch = s.batch := rfl
@[simp] theorem State.setI_driving (a : Word) : (s.setI a).driving = s.driving := rfl
@[simp] theorem State.setI_hostNow (a : Word) : (s.setI a).hostNow = s.hostNow := rfl

/-! `jump` changes only pc. -/

@[simp] theorem State.jump_v (a : Word) : (s.jump a).v = s.v := rfl
@[simp] theorem State.jump_i (a : Word) : (s.jump a).i = s.i := rfl
@[simp] theorem State.jump_sp (a : Word) : (s.jump a).sp = s.sp := rfl
@[simp] theorem State.jump_stack (a : Word) : (s.jump a).stack = s.stack := rfl
@[simp] theorem State.jump_fb (a : Word) : (s.jump a).fb = s.fb := rfl
@[simp] theorem State.jump_dt (a : Word) : (s.jump a).dt = s.dt := rfl
@[simp] theorem State.jump_st (a : Word) : (s.jump a).st = s.st := rfl
@[simp] theorem State.jump_mem (a : Word) : (s.jump a).mem = s.mem := rfl
@[simp] theorem State.jump_keys (a : Word) : (s.jump a).keys = s.keys := rfl
@[simp] theorem State.jump_wait (a : Word) : (s.jump a).wait = s.wait := rfl
@[simp] theorem State.jump_display (a : Word) : (s.jump a).display = s.display := rfl
@[simp] theorem State.jump_halt (a : Word) : (s.jump a).halt = s.halt := rfl
@[simp] theorem State.jump_clockHz (a : Word) : (s.jump a).clockHz = s.clockHz := rfl
@[simp] theorem State.jump_ratio (a : Word) : (s.jump a).ratio = s.ratio := rfl
@[simp] theorem State.jump_cpu (a : Word) : (s.jump a).cpu = s.cpu := rfl
@[simp] theorem State.jump_tmr (a : Word) : (s.jump a).tmr = s.tmr := rfl
@[simp] theorem State.jump_signal (a : Word) : (s.jump a).signal = s.signal := rfl
@[simp] theorem State.jump_params (a : Word) : (s.jump a).params = s.params := rfl
@[simp] theorem State.jump_rndSource (a : Word) : (s.jump a).rndSource = s.rndSource := rfl
@[simp] theorem State.jump_draws (a : Word) : (s.jump a).draws = s.draws := rfl
@[simp] theorem State.jump_inputs (a : Word) : (s.jump a).inputs = s.inputs := rfl
@[simp] theorem State.jump_batch (a : Word) : (s.jump a).batch = s.batch := rfl
@[simp] theorem State.jump_driving (a : Word) : (s.jump a).driving = s.driving := rfl
@[simp] theorem State.jump_hostNow (a : Word) : (s.jump a).hostNow = s.hostNow := rfl

/-! `next` changes only pc. -/

@[simp] theorem State.next_v : (s.next).v = s.v := rfl
@[simp] theorem State.next_i : (s.next).i = s.i := rfl
@[simp] theorem State.next_sp : (s.next).sp = s.sp := rfl
@[simp] theorem State.next_stack : (s.next).stack = s.stack := rfl
@[simp] theorem State.next_fb : (s.next).fb = s.fb := rfl
@[simp] theorem State.next_dt : (s.next).dt = s.dt := rfl
@[simp] theorem State.next_st : (s.next).st = s.st := rfl
@[simp] theorem State.next_mem : (s.next).mem = s.mem := rfl
@[simp] theorem State.next_keys : (s.next).keys = s.keys := rfl
@[simp] theorem State.next_wait : (s.next).wait = s.wait := rfl
@[simp] theorem State.next_display : (s.next).display = s.display := rfl
@[simp] theorem State.next_halt : (s.next).halt = s.halt := rfl
@[simp] theorem State.next_clockHz : (s.next).clockHz = s.clockHz := rfl
@[simp] theorem State.next_ratio : (s.next).ratio = s.ratio := rfl
@[simp] theorem State.next_cpu : (s.next).cpu = s.cpu := rfl
@[simp] theorem State.next_tmr : (s.next).tmr = s.tmr := rfl
@[simp] theorem State.next_signal : (s.next).signal = s.signal := rfl
@[simp] theorem State.next_params : (s.next).params = s.params := rfl
@[simp] theorem State.next_rndSource : (s.next).rndSource = s.rndSource := rfl
@[simp] theorem State.next_draws : (s.next).draws = s.draws := rfl
@[simp] theorem State.next_inputs : (s.next).inputs = s.inputs := rfl
@[simp] theorem State.next_batch : (s.next).batch = s.batch := rfl
@[simp] theorem State.next_driving : (s.next).driving = s.driving := rfl
@[simp] theorem State.next_hostNow : (s.next).hostNow = s.hostNow := rfl

/-! `skip` changes only pc. -/

@[simp] theorem State.skip_v : (s.skip).v = s.v := rfl
@[simp] theorem State.skip_i : (s.skip).i = s.i := rfl
@[simp] theorem State.skip_sp : (s.skip).sp = s.sp := rfl
@[simp] theorem State.skip_stack : (s.skip).stack = s.stack := rfl
@[simp] theorem State.skip_fb : (s.skip).fb = s.fb := rfl
@[simp] theorem State.skip_dt : (s.skip).dt = s.dt := rfl
@[simp] theorem State.skip_st : (s.skip).st = s.st := rfl
@[simp] theorem State.skip_mem : (s.skip).mem = s.mem := rfl
@[simp] theorem State.skip_keys : (s.skip).keys = s.keys := rfl
@[simp] theorem State.skip_wait : (s.skip).wait = s.wait := rfl
@[simp] theorem State.skip_display : (s.skip).display = s.display := rfl
@[simp] theorem State.skip_halt : (s.skip).halt = s.halt := rfl
@[simp] theorem State.skip_clockHz : (s.skip).clockHz = s.clockHz := rfl
@[simp] theorem State.skip_ratio : (s.skip).ratio = s.ratio := rfl
@[simp] theorem State.skip_cpu : (s.skip).cpu = s.cpu := rfl
@[simp] theorem State.skip_tmr : (s.skip).tmr = s.tmr := rfl
@[simp] theorem State.skip_signal : (s.skip).signal = s.signal := rfl
@[simp] theorem State.skip_params : (s.skip).params = s.params := rfl
@[simp] theorem State.skip_rndSource : (s.skip).rndSource = s.rndSource := rfl
@[simp] theorem State.skip_draws : (s.skip).draws = s.draws := rfl
@[simp] theorem State.skip_inputs : (s.skip).inputs = s.inputs := rfl
@[simp] theorem State.skip_batch : (s.skip).batch = s.batch := rfl
@[simp] theorem State.skip_driving : (s.skip).driving = s.driving := rfl
@[simp] theorem State.skip_hostNow : (s.skip).hostNow = s.hostNow := rfl

/-! `withDisplay` changes only display. -/

@[simp] theorem State.withDisplay_v (d : Display) : (s.withDisplay d).v = s.v := rfl
@[simp] theorem State.withDisplay_i (d : Display) : (s.withDisplay d).i = s.i := rfl
@[simp] theorem State.withDisplay_pc (d : Display) : (s.withDisplay d).pc = s.pc := rfl
@[simp] theorem State.withDisplay_sp (d : Display) : (s.withDisplay d).sp = s.sp := rfl
@[simp] theorem State.withDisplay_stack (d : Display) : (s.withDisplay d).stack = s.stack := rfl
@[simp] theorem State.withDisplay_fb (d : Display) : (s.withDisplay d).fb = s.fb := rfl
@[simp] theorem State.withDisplay_dt (d : Display) : (s.withDisplay d).dt = s.dt := rfl
@[simp] theorem State.withDisplay_st (d : Display) : (s.withDisplay d).st = s.st := rfl
@[simp] theorem State.withDisplay_mem (d : Display) : (s.withDisplay d).mem = s.mem := rfl
@[simp] theorem State.withDisplay_keys (d : Display) : (s.withDisplay d).keys = s.keys := rfl
@[simp] theorem State.withDisplay_wait (d : Display) : (s.withDisplay d).wait = s.wait := rfl
@[simp] theorem State.withDisplay_halt (d : Display) : (s.withDisplay d).halt = s.halt := rfl
@[simp] theorem State.withDisplay_clockHz (d : Display) : (s.withDisplay d).clockHz = s.clockHz := rfl
@[simp] theorem State.withDisplay_ratio (d : Display) : (s.withDisplay d).ratio = s.ratio := rfl
@[simp] theorem State.withDisplay_cpu (d : Display) : (s.withDisplay d).cpu = s.cpu := rfl
@[simp] theorem State.withDisplay_tmr (d : Display) : (s.withDisplay d).tmr = s.tmr := rfl
@[simp] theorem State.withDisplay_signal (d : Display) : (s.withDisplay d).signal = s.signal := rfl
@[simp] theorem State.withDisplay_params (d : Display) : (s.withDisplay d).params = s.params := rfl
@[simp] theorem State.withDisplay_rndSource (d : Display) : (s.withDisplay d).rndSource = s.rndSource := rfl
@[simp] theorem State.withDisplay_draws (d : Display) : (s.withDisplay d).draws = s.draws := rfl
@[simp] theorem State.withDisplay_inputs (d : Display) : (s.withDisplay d).inputs = s.inputs := rfl
@[simp] theorem State.withDisplay_batch (d : Display) : (s.withDisplay d).batch = s.batch := rfl
@[simp] theorem State.withDisplay_driving (d : Display) : (s.withDisplay d).driving = s.driving := rfl
@[simp] theorem State.withDisplay_hostNow (d : Display) : (s.withDisplay d).hostNow = s.hostNow := rfl

/-! `loadRegs` changes only v. -/

/-- `loadRegs` as a record update. -/
theorem State.loadRegs_frame (bytes : List Byte) : s.loadRegs bytes = { s with v := (s.loadRegs bytes).v } := by
  simp only [State.loadRegs]

@[simp] theorem State.loadRegs_i (bytes : List Byte) : (s.loadRegs bytes).i = s.i := by rw [s.loadRegs_frame bytes]
@[simp] theorem State.loadRegs_pc (bytes : List Byte) : (s.loadRegs bytes).pc = s.pc := by rw [s.loadRegs_frame bytes]
@[simp] theorem State.loadRegs_sp (bytes : List Byte) : (s.loadRegs bytes).sp = s.sp := by rw [s.loadRegs_frame bytes]
@[simp] theorem State.loadRegs_stack (bytes : List Byte) : (s.loadRegs bytes).stack = s.stack := by rw [s.loadRegs_frame bytes]
@[simp] theorem State.loadRegs_fb (bytes : List Byte) : (s.loadRegs bytes).fb = s.fb := by rw [s.loadRegs_frame bytes]
@[simp] theorem State.loadRegs_dt (bytes : List Byte) : (s.loadRegs bytes).dt = s.dt := by rw [s.loadRegs_frame bytes]
@[simp] theorem State.loadRegs_st (bytes : List Byte) : (s.loadRegs bytes).st = s.st := by rw [s.loadRegs_frame bytes]
@[simp] theorem State.loadRegs_mem (bytes : List Byte) : (s.loadRegs bytes).mem = s.mem := by rw [s.loadRegs_frame bytes]
@[simp] theorem State.loadRegs_keys (bytes : List Byte) : (s.loadRegs bytes).keys = s.keys := by rw [s.loadRegs_frame bytes]
@[simp] theorem State.loadRegs_wait (bytes : List Byte) : (s.loadRegs bytes).wait = s.wait := by rw [s.loadRegs_frame bytes]
@[simp] theorem State.loadRegs_display (bytes : List Byte) : (s.loadRegs bytes).display = s.display := by rw [s.loadRegs_frame bytes]
@[simp] theorem State.loadRegs_halt (bytes : List Byte) : (s.loadRegs bytes).halt = s.halt := by rw [s.loadRegs_frame bytes]
@[simp] theorem State.loadRegs_clockHz (bytes : List Byte) : (s.loadRegs bytes).clockHz = s.clockHz := by rw [s.loadRegs_frame bytes]
@[simp] theorem State.loadRegs_ratio (bytes : List Byte) : (s.loadRegs bytes).ratio = s.ratio := by rw [s.loadRegs_frame bytes]
@[simp] theorem State.loadRegs_cpu (bytes : List Byte) : (s.loadRegs bytes).cpu = s.cpu := by rw [s.loadRegs_frame bytes]
@[simp] theorem State.loadRegs_tmr (bytes : List Byte) : (s.loadRegs bytes).tmr = s.tmr := by rw [s.loadRegs_frame bytes]
@[simp] theorem State.loadRegs_signal (bytes : List Byte) : (s.loadRegs bytes).signal = s.signal := by rw [s.loadRegs_frame bytes]
@[simp] theorem State.loadRegs_params (bytes : List Byte) : (s.loadRegs bytes).params = s.params := by rw [s.loadRegs_frame bytes]
@[simp] theorem State.loadRegs_rndSource (bytes : List Byte) : (s.loadRegs bytes).rndSource = s.rndSource := by rw [s.loadRegs_frame bytes]
@[simp] theorem State.loadRegs_draws (bytes : List Byte) : (s.loadRegs bytes).draws = s.draws := by rw [s.loadRegs_frame bytes]
@[simp] theorem State.loadRegs_inputs (bytes : List Byte) : (s.loadRegs bytes).inputs = s.inputs := by rw [s.loadRegs_frame bytes]
@[simp] theorem State.loadRegs_batch (bytes : List Byte) : (s.loadRegs bytes).batch = s.batch := by rw [s.loadRegs_frame bytes]
@[simp] theorem State.loadRegs_driving (bytes : List Byte) : (s.loadRegs bytes).driving = s.driving := by rw [s.loadRegs_frame bytes]
@[simp] theorem State.loadRegs_hostNow (bytes : List Byte) : (s.loadRegs bytes).hostNow = s.hostNow := by rw [s.loadRegs_frame bytes]

/-! `saveFlags` changes only fb. -/

@[simp] theorem State.saveFlags_v (bytes : List Byte) : (s.saveFlags bytes).v = s.v := rfl
@[simp] theorem State.saveFlags_i (bytes : List Byte) : (s.saveFlags bytes).i = s.i := rfl
@[simp] theorem State.saveFlags_pc (bytes : List Byte) : (s.saveFlags bytes).pc = s.pc := rfl
@[simp] theorem State.saveFlags_sp (bytes : List Byte) : (s.saveFlags bytes).sp = s.sp := rfl
@[simp] theorem State.saveFlags_stack (bytes : List Byte) : (s.saveFlags bytes).stack = s.stack := rfl
@[simp] theorem State.saveFlags_dt (bytes : List Byte) : (s.saveFlags bytes).dt = s.dt := rfl
@[simp] theorem State.saveFlags_st (bytes : List Byte) : (s.saveFlags bytes).st = s.st := rfl
@[simp] theorem State.saveFlags_mem (bytes : List Byte) : (s.saveFlags bytes).mem = s.mem := rfl
@[simp] theorem State.saveFlags_keys (bytes : List Byte) : (s.saveFlags bytes).keys = s.keys := rfl
@[simp] theorem State.saveFlags_wait (bytes : List Byte) : (s.saveFlags bytes).wait = s.wait := rfl
@[simp] theorem State.saveFlags_display (bytes : List Byte) : (s.saveFlags bytes).display = s.display := rfl
@[simp] theorem State.saveFlags_halt (bytes : List Byte) : (s.saveFlags bytes).halt = s.halt := rfl
@[simp] theorem State.saveFlags_clockHz (bytes : List Byte) : (s.saveFlags bytes).clockHz = s.clockHz := rfl
@[simp] theorem State.saveFlags_ratio (bytes : List Byte) : (s.saveFlags bytes).ratio = s.ratio := rfl
@[simp] theorem State.saveFlags_cpu (bytes : List Byte) : (s.saveFlags bytes).cpu = s.cpu := rfl
@[simp] theorem State.saveFlags_tmr (bytes : List Byte) : (s.saveFlags bytes).tmr = s.tmr := rfl
@[simp] theorem State.saveFlags_signal (bytes : List Byte) : (s.saveFlags bytes).signal = s.signal := rfl
@[simp] theorem State.saveFlags_params (bytes : List Byte) : (s.saveFlags bytes).params = s.params := rfl
@[simp] theorem State.saveFlags_rndSource (bytes : List Byte) : (s.saveFlags bytes).rndSource = s.rndSource := rfl
@[simp] theorem State.saveFlags_draws (bytes : List Byte) : (s.saveFlags bytes).draws = s.draws := rfl
@[simp] theorem State.saveFlags_inputs (bytes : List Byte) : (s.saveFlags bytes).inputs = s.inputs := rfl
@[simp] theorem State.saveFlags_batch (bytes : List Byte) : (s.saveFlags bytes).batch = s.batch := rfl
@[simp] theorem State.saveFlags_driving (bytes : List Byte) : (s.saveFlags bytes).driving = s.driving := rfl
@[simp] theorem State.saveFlags_hostNow (bytes : List Byte) : (s.saveFlags bytes).hostNow = s.hostNow := rfl

/-! `stored` changes only mem, pc. -/

@[simp] theorem State.stored_v (m : Memory) : (s.stored m).v = s.v := rfl
@[simp] theorem State.stored_i (m : Memory) : (s.stored m).i = s.i := rfl
@[simp] theorem State.stored_sp (m : Memory) : (s.stored m).sp = s.sp := rfl
@[simp] theorem State.stored_stack (m : Memory) : (s.stored m).stack = s.stack := rfl
@[simp] theorem State.stored_fb (m : Memory) : (s.stored m).fb = s.fb := rfl
@[simp] theorem State.stored_dt (m : Memory) : (s.stored m).dt = s.dt := rfl
@[simp] theorem State.stored_st (m : Memory) : (s.stored m).st = s.st := rfl
@[simp] theorem State.stored_keys (m : Memory) : (s.stored m).keys = s.keys := rfl
@[simp] theorem State.stored_wait (m : Memory) : (s.stored m).wait = s.wait := rfl
@[simp] theorem State.stored_display (m : Memory) : (s.stored m).display = s.display := rfl
@[simp] theorem State.stored_halt (m : Memory) : (s.stored m).halt = s.halt := rfl
@[simp] theorem State.stored_clockHz (m : Memory) : (s.stored m).clockHz = s.clockHz := rfl
@[simp] theorem State.stored_ratio (m : Memory) : (s.stored m).ratio = s.ratio := rfl
@[simp] theorem State.stored_cpu (m : Memory) : (s.stored m).cpu = s.cpu := rfl
@[simp] theorem State.stored_tmr (m : Memory) : (s.stored m).tmr = s.tmr := rfl
@[simp] theorem State.stored_signal (m : Memory) : (s.stored m).signal = s.signal := rfl
@[simp] theorem State.stored_params (m : Memory) : (s.stored m).params = s.params := rfl
@[simp] theorem State.stored_rndSource (m : Memory) : (s.stored m).rndSource = s.rndSource := rfl
@[simp] theorem State.stored_draws (m : Memory) : (s.stored m).draws = s.draws := rfl
@[simp] theorem State.stored_inputs (m : Memory) : (s.stored m).inputs = s.inputs := rfl
@[simp] theorem State.stored_batch (m : Memory) : (s.stored m).batch = s.batch := rfl
@[simp] theorem State.stored_driving (m : Memory) : (s.stored m).driving = s.driving := rfl
@[simp] theorem State.stored_hostNow (m : Memory) : (s.stored m).hostNow = s.hostNow := rfl

/-! `drawn` changes only v, display, pc. -/

/-- `drawn` as a record update. -/
theorem State.drawn_frame (blit : Display × Bool) :
    s.drawn blit = { s with v := (s.drawn blit).v, display := blit.1, pc := s.pc + 2 } := by
  simp only [State.drawn, State.next, State.jump, State.setVf, State.setReg, State.withDisplay]

@[simp] theorem State.drawn_i (blit : Display × Bool) : (s.drawn blit).i = s.i := by rw [s.drawn_frame blit]
@[simp] theorem State.drawn_sp (blit : Display × Bool) : (s.drawn blit).sp = s.sp := by rw [s.drawn_frame blit]
@[simp] theorem State.drawn_stack (blit : Display × Bool) : (s.drawn blit).stack = s.stack := by rw [s.drawn_frame blit]
@[simp] theorem State.drawn_fb (blit : Display × Bool) : (s.drawn blit).fb = s.fb := by rw [s.drawn_frame blit]
@[simp] theorem State.drawn_dt (blit : Display × Bool) : (s.drawn blit).dt = s.dt := by rw [s.drawn_frame blit]
@[simp] theorem State.drawn_st (blit : Display × Bool) : (s.drawn blit).st = s.st := by rw [s.drawn_frame blit]
@[simp] theorem State.drawn_mem (blit : Display × Bool) : (s.drawn blit).mem = s.mem := by rw [s.drawn_frame blit]
@[simp] theorem State.drawn_keys (blit : Display × Bool) : (s.drawn blit).keys = s.keys := by rw [s.drawn_frame blit]
@[simp] theorem State.drawn_wait (blit : Display × Bool) : (s.drawn blit).wait = s.wait := by rw [s.drawn_frame blit]
@[simp] theorem State.drawn_halt (blit : Display × Bool) : (s.drawn blit).halt = s.halt := by rw [s.drawn_frame blit]
@[simp] theorem State.drawn_clockHz (blit : Display × Bool) : (s.drawn blit).clockHz = s.clockHz := by rw [s.drawn_frame blit]
@[simp] theorem State.drawn_ratio (blit : Display × Bool) : (s.drawn blit).ratio = s.ratio := by rw [s.drawn_frame blit]
@[simp] theorem State.drawn_cpu (blit : Display × Bool) : (s.drawn blit).cpu = s.cpu := by rw [s.drawn_frame blit]
@[simp] theorem State.drawn_tmr (blit : Display × Bool) : (s.drawn blit).tmr = s.tmr := by rw [s.drawn_frame blit]
@[simp] theorem State.drawn_signal (blit : Display × Bool) : (s.drawn blit).signal = s.signal := by rw [s.drawn_frame blit]
@[simp] theorem State.drawn_params (blit : Display × Bool) : (s.drawn blit).params = s.params := by rw [s.drawn_frame blit]
@[simp] theorem State.drawn_rndSource (blit : Display × Bool) : (s.drawn blit).rndSource = s.rndSource := by rw [s.drawn_frame blit]
@[simp] theorem State.drawn_draws (blit : Display × Bool) : (s.drawn blit).draws = s.draws := by rw [s.drawn_frame blit]
@[simp] theorem State.drawn_inputs (blit : Display × Bool) : (s.drawn blit).inputs = s.inputs := by rw [s.drawn_frame blit]
@[simp] theorem State.drawn_batch (blit : Display × Bool) : (s.drawn blit).batch = s.batch := by rw [s.drawn_frame blit]
@[simp] theorem State.drawn_driving (blit : Display × Bool) : (s.drawn blit).driving = s.driving := by rw [s.drawn_frame blit]
@[simp] theorem State.drawn_hostNow (blit : Display × Bool) : (s.drawn blit).hostNow = s.hostNow := by rw [s.drawn_frame blit]

/-! `clearSignal` changes only signal. -/

@[simp] theorem State.clearSignal_v : (s.clearSignal).v = s.v := rfl
@[simp] theorem State.clearSignal_i : (s.clearSignal).i = s.i := rfl
@[simp] theorem State.clearSignal_pc : (s.clearSignal).pc = s.pc := rfl
@[simp] theorem State.clearSignal_sp : (s.clearSignal).sp = s.sp := rfl
@[simp] theorem State.clearSignal_stack : (s.clearSignal).stack = s.stack := rfl
@[simp] theorem State.clearSignal_fb : (s.clearSignal).fb = s.fb := rfl
@[simp] theorem State.clearSignal_dt : (s.clearSignal).dt = s.dt := rfl
@[simp] theorem State.clearSignal_st : (s.clearSignal).st = s.st := rfl
@[simp] theorem State.clearSignal_mem : (s.clearSignal).mem = s.mem := rfl
@[simp] theorem State.clearSignal_keys : (s.clearSignal).keys = s.keys := rfl
@[simp] theorem State.clearSignal_wait : (s.clearSignal).wait = s.wait := rfl
@[simp] theorem State.clearSignal_display : (s.clearSignal).display = s.display := rfl
@[simp] theorem State.clearSignal_halt : (s.clearSignal).halt = s.halt := rfl
@[simp] theorem State.clearSignal_clockHz : (s.clearSignal).clockHz = s.clockHz := rfl
@[simp] theorem State.clearSignal_ratio : (s.clearSignal).ratio = s.ratio := rfl
@[simp] theorem State.clearSignal_cpu : (s.clearSignal).cpu = s.cpu := rfl
@[simp] theorem State.clearSignal_tmr : (s.clearSignal).tmr = s.tmr := rfl
@[simp] theorem State.clearSignal_params : (s.clearSignal).params = s.params := rfl
@[simp] theorem State.clearSignal_rndSource : (s.clearSignal).rndSource = s.rndSource := rfl
@[simp] theorem State.clearSignal_draws : (s.clearSignal).draws = s.draws := rfl
@[simp] theorem State.clearSignal_inputs : (s.clearSignal).inputs = s.inputs := rfl
@[simp] theorem State.clearSignal_batch : (s.clearSignal).batch = s.batch := rfl
@[simp] theorem State.clearSignal_driving : (s.clearSignal).driving = s.driving := rfl
@[simp] theorem State.clearSignal_hostNow : (s.clearSignal).hostNow = s.hostNow := rfl

/-! `skipIf` changes only pc. -/

/-- `skipIf` as a record update. -/
theorem State.skipIf_frame (c : Bool) : s.skipIf c = { s with pc := (s.skipIf c).pc } := by
  cases c <;> rfl

@[simp] theorem State.skipIf_v (c : Bool) : (s.skipIf c).v = s.v := by rw [s.skipIf_frame c]
@[simp] theorem State.skipIf_i (c : Bool) : (s.skipIf c).i = s.i := by rw [s.skipIf_frame c]
@[simp] theorem State.skipIf_sp (c : Bool) : (s.skipIf c).sp = s.sp := by rw [s.skipIf_frame c]
@[simp] theorem State.skipIf_stack (c : Bool) : (s.skipIf c).stack = s.stack := by rw [s.skipIf_frame c]
@[simp] theorem State.skipIf_fb (c : Bool) : (s.skipIf c).fb = s.fb := by rw [s.skipIf_frame c]
@[simp] theorem State.skipIf_dt (c : Bool) : (s.skipIf c).dt = s.dt := by rw [s.skipIf_frame c]
@[simp] theorem State.skipIf_st (c : Bool) : (s.skipIf c).st = s.st := by rw [s.skipIf_frame c]
@[simp] theorem State.skipIf_mem (c : Bool) : (s.skipIf c).mem = s.mem := by rw [s.skipIf_frame c]
@[simp] theorem State.skipIf_keys (c : Bool) : (s.skipIf c).keys = s.keys := by rw [s.skipIf_frame c]
@[simp] theorem State.skipIf_wait (c : Bool) : (s.skipIf c).wait = s.wait := by rw [s.skipIf_frame c]
@[simp] theorem State.skipIf_display (c : Bool) : (s.skipIf c).display = s.display := by rw [s.skipIf_frame c]
@[simp] theorem State.skipIf_halt (c : Bool) : (s.skipIf c).halt = s.halt := by rw [s.skipIf_frame c]
@[simp] theorem State.skipIf_clockHz (c : Bool) : (s.skipIf c).clockHz = s.clockHz := by rw [s.skipIf_frame c]
@[simp] theorem State.skipIf_ratio (c : Bool) : (s.skipIf c).ratio = s.ratio := by rw [s.skipIf_frame c]
@[simp] theorem State.skipIf_cpu (c : Bool) : (s.skipIf c).cpu = s.cpu := by rw [s.skipIf_frame c]
@[simp] theorem State.skipIf_tmr (c : Bool) : (s.skipIf c).tmr = s.tmr := by rw [s.skipIf_frame c]
@[simp] theorem State.skipIf_signal (c : Bool) : (s.skipIf c).signal = s.signal := by rw [s.skipIf_frame c]
@[simp] theorem State.skipIf_params (c : Bool) : (s.skipIf c).params = s.params := by rw [s.skipIf_frame c]
@[simp] theorem State.skipIf_rndSource (c : Bool) : (s.skipIf c).rndSource = s.rndSource := by rw [s.skipIf_frame c]
@[simp] theorem State.skipIf_draws (c : Bool) : (s.skipIf c).draws = s.draws := by rw [s.skipIf_frame c]
@[simp] theorem State.skipIf_inputs (c : Bool) : (s.skipIf c).inputs = s.inputs := by rw [s.skipIf_frame c]
@[simp] theorem State.skipIf_batch (c : Bool) : (s.skipIf c).batch = s.batch := by rw [s.skipIf_frame c]
@[simp] theorem State.skipIf_driving (c : Bool) : (s.skipIf c).driving = s.driving := by rw [s.skipIf_frame c]
@[simp] theorem State.skipIf_hostNow (c : Bool) : (s.skipIf c).hostNow = s.hostNow := by rw [s.skipIf_frame c]

/-! `writeResultFlag` changes only v. -/

/-- `writeResultFlag` as a record update. -/
theorem State.writeResultFlag_frame (x : Nibble) (r f : Byte) : s.writeResultFlag x r f = { s with v := (s.writeResultFlag x r f).v } := by
  unfold State.writeResultFlag
  split <;> rfl

@[simp] theorem State.writeResultFlag_i (x : Nibble) (r f : Byte) : (s.writeResultFlag x r f).i = s.i := by rw [s.writeResultFlag_frame x r f]
@[simp] theorem State.writeResultFlag_pc (x : Nibble) (r f : Byte) : (s.writeResultFlag x r f).pc = s.pc := by rw [s.writeResultFlag_frame x r f]
@[simp] theorem State.writeResultFlag_sp (x : Nibble) (r f : Byte) : (s.writeResultFlag x r f).sp = s.sp := by rw [s.writeResultFlag_frame x r f]
@[simp] theorem State.writeResultFlag_stack (x : Nibble) (r f : Byte) : (s.writeResultFlag x r f).stack = s.stack := by rw [s.writeResultFlag_frame x r f]
@[simp] theorem State.writeResultFlag_fb (x : Nibble) (r f : Byte) : (s.writeResultFlag x r f).fb = s.fb := by rw [s.writeResultFlag_frame x r f]
@[simp] theorem State.writeResultFlag_dt (x : Nibble) (r f : Byte) : (s.writeResultFlag x r f).dt = s.dt := by rw [s.writeResultFlag_frame x r f]
@[simp] theorem State.writeResultFlag_st (x : Nibble) (r f : Byte) : (s.writeResultFlag x r f).st = s.st := by rw [s.writeResultFlag_frame x r f]
@[simp] theorem State.writeResultFlag_mem (x : Nibble) (r f : Byte) : (s.writeResultFlag x r f).mem = s.mem := by rw [s.writeResultFlag_frame x r f]
@[simp] theorem State.writeResultFlag_keys (x : Nibble) (r f : Byte) : (s.writeResultFlag x r f).keys = s.keys := by rw [s.writeResultFlag_frame x r f]
@[simp] theorem State.writeResultFlag_wait (x : Nibble) (r f : Byte) : (s.writeResultFlag x r f).wait = s.wait := by rw [s.writeResultFlag_frame x r f]
@[simp] theorem State.writeResultFlag_display (x : Nibble) (r f : Byte) : (s.writeResultFlag x r f).display = s.display := by rw [s.writeResultFlag_frame x r f]
@[simp] theorem State.writeResultFlag_halt (x : Nibble) (r f : Byte) : (s.writeResultFlag x r f).halt = s.halt := by rw [s.writeResultFlag_frame x r f]
@[simp] theorem State.writeResultFlag_clockHz (x : Nibble) (r f : Byte) : (s.writeResultFlag x r f).clockHz = s.clockHz := by rw [s.writeResultFlag_frame x r f]
@[simp] theorem State.writeResultFlag_ratio (x : Nibble) (r f : Byte) : (s.writeResultFlag x r f).ratio = s.ratio := by rw [s.writeResultFlag_frame x r f]
@[simp] theorem State.writeResultFlag_cpu (x : Nibble) (r f : Byte) : (s.writeResultFlag x r f).cpu = s.cpu := by rw [s.writeResultFlag_frame x r f]
@[simp] theorem State.writeResultFlag_tmr (x : Nibble) (r f : Byte) : (s.writeResultFlag x r f).tmr = s.tmr := by rw [s.writeResultFlag_frame x r f]
@[simp] theorem State.writeResultFlag_signal (x : Nibble) (r f : Byte) : (s.writeResultFlag x r f).signal = s.signal := by rw [s.writeResultFlag_frame x r f]
@[simp] theorem State.writeResultFlag_params (x : Nibble) (r f : Byte) : (s.writeResultFlag x r f).params = s.params := by rw [s.writeResultFlag_frame x r f]
@[simp] theorem State.writeResultFlag_rndSource (x : Nibble) (r f : Byte) : (s.writeResultFlag x r f).rndSource = s.rndSource := by rw [s.writeResultFlag_frame x r f]
@[simp] theorem State.writeResultFlag_draws (x : Nibble) (r f : Byte) : (s.writeResultFlag x r f).draws = s.draws := by rw [s.writeResultFlag_frame x r f]
@[simp] theorem State.writeResultFlag_inputs (x : Nibble) (r f : Byte) : (s.writeResultFlag x r f).inputs = s.inputs := by rw [s.writeResultFlag_frame x r f]
@[simp] theorem State.writeResultFlag_batch (x : Nibble) (r f : Byte) : (s.writeResultFlag x r f).batch = s.batch := by rw [s.writeResultFlag_frame x r f]
@[simp] theorem State.writeResultFlag_driving (x : Nibble) (r f : Byte) : (s.writeResultFlag x r f).driving = s.driving := by rw [s.writeResultFlag_frame x r f]
@[simp] theorem State.writeResultFlag_hostNow (x : Nibble) (r f : Byte) : (s.writeResultFlag x r f).hostNow = s.hostNow := by rw [s.writeResultFlag_frame x r f]

/-! What each update puts into the field it changes. -/

@[simp] theorem State.setReg_v (x : Nibble) (b : Byte) : (s.setReg x b).v = s.v.set x.toNat b x.isLt := rfl
@[simp] theorem State.setI_i (a : Word) : (s.setI a).i = a := rfl
@[simp] theorem State.jump_pc (a : Word) : (s.jump a).pc = a := rfl
@[simp] theorem State.next_pc : s.next.pc = s.pc + 2 := rfl
@[simp] theorem State.skip_pc : s.skip.pc = s.pc + 4 := rfl
@[simp] theorem State.withDisplay_display (d : Display) : (s.withDisplay d).display = d := rfl
@[simp] theorem State.stored_mem (m : Memory) : (s.stored m).mem = m := rfl
@[simp] theorem State.stored_pc (m : Memory) : (s.stored m).pc = s.pc + 2 := rfl
@[simp] theorem State.drawn_display (blit : Display × Bool) : (s.drawn blit).display = blit.1 := by rw [s.drawn_frame blit]
@[simp] theorem State.drawn_pc (blit : Display × Bool) : (s.drawn blit).pc = s.pc + 2 := by rw [s.drawn_frame blit]
@[simp] theorem State.clearSignal_signal : s.clearSignal.signal = none := rfl
@[simp] theorem State.skipIf_pc (c : Bool) : (s.skipIf c).pc = if c then s.pc + 4 else s.pc + 2 := by cases c <;> rfl

/-! Reading a register after an update. -/

@[simp] theorem State.setI_reg (a : Word) (r : Nibble) : (s.setI a).reg r = s.reg r := by simp [State.reg]
@[simp] theorem State.setI_vf (a : Word) : (s.setI a).vf = s.vf := by simp [State.vf]
@[simp] theorem State.jump_reg (a : Word) (r : Nibble) : (s.jump a).reg r = s.reg r := by simp [State.reg]
@[simp] theorem State.jump_vf (a : Word) : (s.jump a).vf = s.vf := by simp [State.vf]
@[simp] theorem State.next_reg (r : Nibble) : (s.next).reg r = s.reg r := by simp [State.reg]
@[simp] theorem State.next_vf : (s.next).vf = s.vf := by simp [State.vf]
@[simp] theorem State.skip_reg (r : Nibble) : (s.skip).reg r = s.reg r := by simp [State.reg]
@[simp] theorem State.skip_vf : (s.skip).vf = s.vf := by simp [State.vf]
@[simp] theorem State.withDisplay_reg (d : Display) (r : Nibble) : (s.withDisplay d).reg r = s.reg r := by simp [State.reg]
@[simp] theorem State.withDisplay_vf (d : Display) : (s.withDisplay d).vf = s.vf := by simp [State.vf]
@[simp] theorem State.saveFlags_reg (bytes : List Byte) (r : Nibble) : (s.saveFlags bytes).reg r = s.reg r := by simp [State.reg]
@[simp] theorem State.saveFlags_vf (bytes : List Byte) : (s.saveFlags bytes).vf = s.vf := by simp [State.vf]
@[simp] theorem State.stored_reg (m : Memory) (r : Nibble) : (s.stored m).reg r = s.reg r := by simp [State.reg]
@[simp] theorem State.stored_vf (m : Memory) : (s.stored m).vf = s.vf := by simp [State.vf]
@[simp] theorem State.clearSignal_reg (r : Nibble) : (s.clearSignal).reg r = s.reg r := by simp [State.reg]
@[simp] theorem State.clearSignal_vf : (s.clearSignal).vf = s.vf := by simp [State.vf]
@[simp] theorem State.skipIf_reg (c : Bool) (r : Nibble) : (s.skipIf c).reg r = s.reg r := by simp [State.reg]
@[simp] theorem State.skipIf_vf (c : Bool) : (s.skipIf c).vf = s.vf := by simp [State.vf]

/-- A register reads back what was last written to it, and a write leaves the others alone. -/
theorem State.reg_setReg (x r : Nibble) (b : Byte) : (s.setReg x b).reg r = if r = x then b else s.reg r := by
  unfold State.reg State.setReg
  simp only [Vector.getElem_set]
  by_cases h : r = x
  · simp [h]
  · rw [if_neg h, if_neg fun e => h (BitVec.eq_of_toNat_eq e.symm)]

@[simp] theorem State.reg_setReg_same (x : Nibble) (b : Byte) : (s.setReg x b).reg x = b := by simp [State.reg_setReg]

theorem State.reg_setVf (r : Nibble) (b : Byte) : (s.setVf b).reg r = if r = 15 then b else s.reg r := s.reg_setReg 15 r b

@[simp] theorem State.vf_setVf (b : Byte) : (s.setVf b).vf = b := by simp [State.vf, State.setVf]

/-- The registers after the two writes of R171 (42_load_alu.md). -/
theorem State.reg_writeResultFlag (x r : Nibble) (result flag : Byte) :
    (s.writeResultFlag x result flag).reg r =
      if s.params.vfWriteLast then (if r = 15 then flag else if r = x then result else s.reg r)
      else (if r = x then result else if r = 15 then flag else s.reg r) := by
  unfold State.writeResultFlag
  split <;> simp [State.reg_setReg, State.reg_setVf]

/-- Registers covered by the list take its bytes, the others keep their values. -/
theorem State.reg_loadRegs (bytes : List Byte) (r : Nibble) :
    (s.loadRegs bytes).reg r = bytes.getD r.toNat (s.reg r) := by
  simp [State.reg, State.loadRegs]

/-- The registers after a draw: VF is the collision as 1 or 0, the others are unchanged. -/
theorem State.reg_drawn (blit : Display × Bool) (r : Nibble) :
    (s.drawn blit).reg r = if r = 15 then flagByte blit.2 else s.reg r := by
  simp [State.drawn, State.reg_setVf]

end Sys2Proof.Machine
end

