-- ==== Sys2Proof/Laws/Ops.lean ====
section
/-! SUPPORT. For each shared operation, one lemma that says everything it can do. -/

namespace Sys2Proof.Machine

/-- An instruction that may fault either applies its effect or records the fault on the state before it. -/
theorem finish_eq_next {s t : State} {effect : Except CoreFault State} :
    finish s effect = .next t ↔ effect = .ok t ∨ ∃ f, effect = .error f ∧ t = { s with halt := some f } := by
  cases effect with
  | ok u => simp [finish]
  | error f => simp [finish, raise, eq_comm]

/-- An instruction that may fault always answers a next state. -/
theorem finish_completes (s : State) (effect : Except CoreFault State) : ∃ t, finish s effect = .next t := by
  cases effect with
  | ok u => exact ⟨u, rfl⟩
  | error f => exact ⟨_, rfl⟩

/-- `MemRead` gives n bytes, byte k from address `addr + k`, and only in range. -/
theorem memRead_ok {m : Memory} {addr n : Nat} {bytes : List Byte} (h : memRead m addr n = .ok bytes) :
    addr + n - 1 ≤ 4095 ∧ bytes.length = n ∧ ∀ k < n, ∀ b, bytes.getD k b = m.read (addr + k) := by
  unfold memRead at h
  split at h
  · cases h
  · next hr =>
    cases h
    refine ⟨by omega, by simp, fun k hk b => ?_⟩
    simp [List.getD_eq_getElem?_getD, hk]

theorem memRead_inRange (m : Memory) {addr n : Nat} (h : addr + n - 1 ≤ 4095) :
    memRead m addr n = .ok ((List.range n).map fun k => m.read (addr + k)) := if_neg (by omega)

theorem memRead_outOfRange (m : Memory) {addr n : Nat} (h : 4095 < addr + n - 1) :
    memRead m addr n = .error (.memoryOutOfRange addr) := if_pos h

theorem memWrite_inRange (m : Memory) {addr : Nat} {bytes : List Byte} (h : addr + bytes.length - 1 ≤ 4095) :
    memWrite m addr bytes = .ok (m.writeBytes addr bytes) := if_neg (by omega)

theorem memWrite_outOfRange (m : Memory) {addr : Nat} {bytes : List Byte} (h : 4095 < addr + bytes.length - 1) :
    memWrite m addr bytes = .error (.memoryOutOfRange addr) := if_pos h

/-- `MemWrite` either writes the whole run or faults with the first address. -/
theorem memWrite_cases (m : Memory) (addr : Nat) (bytes : List Byte) :
    (addr + bytes.length - 1 ≤ 4095 ∧ memWrite m addr bytes = .ok (m.writeBytes addr bytes)) ∨
    (4095 < addr + bytes.length - 1 ∧ memWrite m addr bytes = .error (.memoryOutOfRange addr)) := by
  by_cases h : addr + bytes.length - 1 ≤ 4095
  · exact .inl ⟨h, memWrite_inRange m h⟩
  · exact .inr ⟨by omega, memWrite_outOfRange m (by omega)⟩

/-- A push below depth 16 stores the address in the next slot; at depth 16 it fails. -/
theorem State.push_cases (s : State) (a : Word) :
    (∃ h : s.sp.val < 16,
      s.push a = .ok { s with stack := s.stack.set s.sp.val a h, sp := ⟨s.sp.val + 1, by omega⟩ }) ∨
    (s.sp.val = 16 ∧ s.push a = .error .stackOverflow) := by
  by_cases h : s.sp.val < 16
  · exact .inl ⟨h, by simp [State.push, h]⟩
  · exact .inr ⟨by omega, by simp [State.push, h]⟩

/-- A pop above depth 0 gives the slot below and lowers the depth; at depth 0 it fails. -/
theorem State.pop_cases (s : State) :
    (∃ h : 0 < s.sp.val,
      s.pop = .ok (s.stack[s.sp.val - 1]'(by omega), { s with sp := ⟨s.sp.val - 1, by omega⟩ })) ∨
    (s.sp.val = 0 ∧ s.pop = .error .stackUnderflow) := by
  by_cases h : 0 < s.sp.val
  · exact .inl ⟨h, by simp [State.pop, h]⟩
  · exact .inr ⟨by omega, by simp [State.pop, h]⟩

/-- A fetch at or below 4094 gives the big-endian word at `PC`. -/
theorem fetch_inRange {s : State} (h : s.pc.toNat ≤ 4094) :
    fetch s = .ok (wordOfBytes (s.mem.read s.pc.toNat) (s.mem.read (s.pc.toNat + 1))) := by
  unfold fetch
  rw [memRead_inRange s.mem (by omega)]
  rfl

/-- A fetch above 4094 faults with the address of the fetch. -/
theorem fetch_outOfRange {s : State} (h : 4095 ≤ s.pc.toNat) : fetch s = .error (.memoryOutOfRange s.pc.toNat) := by
  unfold fetch
  rw [memRead_outOfRange s.mem (by omega)]
  rfl

/-- Drawing a byte changes only the source and the count of draws. -/
theorem State.drawByte_frame (s : State) :
    s.drawByte.2 = { s with rndSource := s.drawByte.2.rndSource, draws := s.draws + 1 } := by
  unfold State.drawByte
  split <;> simp_all

/-- The key query answers for a key 0 to 15 and faults for any other value. -/
theorem State.keyDown_cases (s : State) (k : Byte) :
    (∃ h : k.toNat < 16, s.keyDown k = .ok (s.keys[k.toNat]'h)) ∨ (15 < k.toNat ∧ s.keyDown k = .error (.keyIndexOutOfRange k)) := by
  by_cases h : k.toNat < 16
  · exact .inl ⟨h, by simp [State.keyDown, h]⟩
  · exact .inr ⟨by omega, by simp [State.keyDown, h]⟩

/-- The flag-bank bound lets 0 to 7 pass and faults for 8 to 15. -/
theorem checkFlagIndex_cases (x : Nibble) :
    (x.toNat ≤ 7 ∧ checkFlagIndex x = .ok ()) ∨ (7 < x.toNat ∧ checkFlagIndex x = .error (.flagIndexOutOfRange x)) := by
  by_cases h : x.toNat > 7
  · exact .inr ⟨h, if_pos h⟩
  · exact .inl ⟨by omega, if_neg h⟩

@[simp] theorem State.firstRegs_length (s : State) (x : Nibble) : (s.firstRegs x).length = x.toNat + 1 := by
  have := x.isLt
  simp [State.firstRegs]; omega

@[simp] theorem decimalDigits_length (b : Byte) : (decimalDigits b).length = 3 := by simp [decimalDigits]

/-! An instruction that may fault, by the operation that may fault: the effect, or the record of the fault. -/

theorem finish_memRead (s : State) (m : Memory) (addr n : Nat) (g : List Byte → State) :
    finish s ((memRead m addr n).map g) =
      if 4095 < addr + n - 1 then .next { s with halt := some (.memoryOutOfRange addr) }
      else .next (g ((List.range n).map fun k => m.read (addr + k))) := by
  unfold memRead; split <;> rfl

theorem finish_memWrite (s : State) (m : Memory) (addr : Nat) (bytes : List Byte) (g : Memory → State) :
    finish s ((memWrite m addr bytes).map g) =
      if 4095 < addr + bytes.length - 1 then .next { s with halt := some (.memoryOutOfRange addr) }
      else .next (g (m.writeBytes addr bytes)) := by
  unfold memWrite; split <;> rfl

theorem finish_checkFlagIndex (s : State) (x : Nibble) (g : Unit → State) :
    finish s ((checkFlagIndex x).map g) =
      if 7 < x.toNat then .next { s with halt := some (.flagIndexOutOfRange x) } else .next (g ()) := by
  unfold checkFlagIndex; split <;> rfl

theorem finish_keyDown (s : State) (k : Byte) (g : Bool → State) :
    finish s ((s.keyDown k).map g) =
      if 15 < k.toNat then .next { s with halt := some (.keyIndexOutOfRange k) } else .next (g (s.keys.toList.getD k.toNat false)) := by
  rcases s.keyDown_cases k with ⟨h, e⟩ | ⟨h, e⟩
  · rw [e, if_neg (by omega)]; simp [Except.map, finish, h]
  · rw [e, if_pos h]; rfl

end Sys2Proof.Machine
end

