-- ==== Sys2Proof/Laws/Exec.lean ====
section
/-! SUPPORT. How an instruction ends, and that every instruction answers a next state. -/

namespace Sys2Proof.Machine

/-- Every way an instruction ends: it leaves the fault record alone, or it records a fault and changes nothing else. -/
theorem exec_next_cases {i : Instr} {s t : State} (h : exec i s = .next t) :
    t.halt = s.halt ∨ ∃ f, t = { s with halt := some f } := by
  cases i <;> simp only [exec] at h
  case call n =>
    rcases finish_eq_next.1 h with h | ⟨f, -, h⟩
    · rcases s.push_cases s.pc with ⟨_, e⟩ | ⟨_, e⟩ <;> rw [e] at h <;> cases h; exact .inl rfl
    · exact .inr ⟨f, h⟩
  case ret =>
    rcases finish_eq_next.1 h with h | ⟨f, -, h⟩
    · rcases s.pop_cases with ⟨_, e⟩ | ⟨_, e⟩ <;> rw [e] at h <;> cases h; exact .inl rfl
    · exact .inr ⟨f, h⟩
  case ldVxK x =>
    simp only [execLdVxK] at h
    split at h <;> cases h <;> exact .inl (by simp)
  case rnd x kk =>
    cases h; left
    rw [State.next_halt, State.setReg_halt, s.drawByte_frame]
  case exit => cases h; exact .inl rfl
  case freeze => cases h; exact .inl rfl
  all_goals first
    | (cases h; exact .inl (by simp))
    | (rcases finish_eq_next.1 h with h | ⟨f, -, h⟩
       · generalize hg : memRead _ _ _ = g at h
         cases g <;> cases h
         exact .inl (by simp)
       · exact .inr ⟨f, h⟩)
    | (rcases finish_eq_next.1 h with h | ⟨f, -, h⟩
       · generalize hg : memWrite _ _ _ = g at h
         cases g <;> cases h
         exact .inl (by simp)
       · exact .inr ⟨f, h⟩)
    | (rcases finish_eq_next.1 h with h | ⟨f, -, h⟩
       · generalize hg : checkFlagIndex _ = g at h
         cases g <;> cases h
         exact .inl (by simp)
       · exact .inr ⟨f, h⟩)
    | (rcases finish_eq_next.1 h with h | ⟨f, -, h⟩
       · generalize hg : State.keyDown _ _ = g at h
         cases g <;> cases h
         exact .inl (by simp)
       · exact .inr ⟨f, h⟩)

end Sys2Proof.Machine
end

