-- ==== Sys2Proof/Laws/Memory.lean ====
section
/-! SUPPORT. The laws of memory: a read after a write, the canonical form kept by every write, and equality of memories that read alike. -/

namespace Sys2Proof.Machine

/-- Every listed address is above `lo`. -/
def AllAbove (lo : Nat) (m : Memory) : Prop := ∀ cell ∈ m, lo < cell.1

theorem Memory.wf_cons (k : Nat) (b : Byte) (rest : Memory) :
    Memory.wf ((k, b) :: rest) = true ↔ k < 4096 ∧ b ≠ unlistedByte k ∧ AllAbove k rest ∧ Memory.wf rest = true := by
  simp [Memory.wf, AllAbove, and_assoc]

/-- An address that is not listed reads as its unlisted byte. -/
theorem Memory.read_below {m : Memory} {a : Nat} (h : AllAbove a m) : m.read a = unlistedByte a := by
  induction m with
  | nil => rfl
  | cons cell rest ih =>
    have hk : a < cell.1 := h cell (by simp)
    have hr : AllAbove a rest := fun c hc => h c (by simp [hc])
    obtain ⟨k, b⟩ := cell
    simp only [Memory.read]
    rw [if_neg (by simp at hk; omega), ih hr]

/-- A write leaves every other address as it was, in canonical form or not. -/
theorem Memory.read_write_ne (m : Memory) {a c : Nat} (b : Byte) (hc : c ≠ a) : (m.write a b).read c = m.read c := by
  induction m with
  | nil =>
    simp only [Memory.write]
    split
    · rfl
    · simp [Memory.read, Ne.symm hc]
  | cons cell rest ih =>
    obtain ⟨k, d⟩ := cell
    simp only [Memory.write]
    split
    · split
      · rfl
      · conv_lhs => unfold Memory.read
        rw [if_neg (Ne.symm hc)]
    · split
      · next heq =>
        subst heq
        split
        · simp [Memory.read, Ne.symm hc]
        · simp [Memory.read, Ne.symm hc]
      · simp only [Memory.read, ih]

/-- A run of bytes leaves every address outside it as it was, in canonical form or not. -/
theorem Memory.read_writeBytes_outside (bytes : List Byte) (m : Memory) {a c : Nat} (hc : ¬ (a ≤ c ∧ c < a + bytes.length)) :
    (m.writeBytes a bytes).read c = m.read c := by
  induction bytes generalizing m a with
  | nil => rfl
  | cons b rest ih =>
    simp only [List.length_cons] at hc
    simp only [Memory.writeBytes]
    rw [ih _ (by omega), Memory.read_write_ne _ _ (by omega)]

/-- Reading after a write: the written address gives the byte, every other address what it gave before. -/
theorem Memory.read_write {m : Memory} (hm : m.wf = true) (a c : Nat) (b : Byte) :
    (m.write a b).read c = if c = a then b else m.read c := by
  induction m with
  | nil =>
    simp only [Memory.write]
    split
    · next h => split <;> simp_all [Memory.read]
    · by_cases hc : c = a
      · simp [Memory.read, hc]
      · simp [Memory.read, hc, Ne.symm hc]
  | cons cell rest ih =>
    obtain ⟨k, d⟩ := cell
    obtain ⟨-, -, habove, hrest⟩ := (Memory.wf_cons k d rest).1 hm
    have ih := ih hrest
    have below : ∀ {e}, e ≤ k → e ≠ k → Memory.read ((k, d) :: rest) e = unlistedByte e := by
      intro e he hne
      simp only [Memory.read, if_neg (Ne.symm hne)]
      exact Memory.read_below fun cell' hc => lt_of_le_of_lt he (habove cell' hc)
    simp only [Memory.write]
    split
    · next hlt =>
      split
      · next hb =>
        by_cases hc : c = a
        · rw [if_pos hc, hc, below (by omega) (by omega), hb]
        · rw [if_neg hc]
      · by_cases hc : c = a
        · simp [Memory.read, hc]
        · rw [if_neg hc]; conv_lhs => unfold Memory.read
          rw [if_neg (Ne.symm hc)]
    · split
      · next hge heq =>
        subst heq
        split
        · next hb =>
          by_cases hc : c = a
          · rw [if_pos hc, hc, Memory.read_below habove, hb]
          · rw [if_neg hc]; conv_rhs => unfold Memory.read
            rw [if_neg (Ne.symm hc)]
        · by_cases hc : c = a
          · simp [Memory.read, hc]
          · simp [Memory.read, hc, Ne.symm hc]
      · next hge hne =>
        by_cases hk : k = c
        · subst hk; rw [if_neg (by omega)]; simp [Memory.read]
        · simp only [Memory.read, if_neg hk, ih]

theorem Memory.write_above {m : Memory} {lo a : Nat} {b : Byte} (h : AllAbove lo m) (ha : lo < a) : AllAbove lo (m.write a b) := by
  induction m with
  | nil =>
    simp only [Memory.write]
    split
    · exact h
    · intro cell hc; simp at hc; simp [hc, ha]
  | cons cell rest ih =>
    obtain ⟨k, d⟩ := cell
    have hk : lo < k := h (k, d) (by simp)
    have hr : AllAbove lo rest := fun c hc => h c (by simp [hc])
    simp only [Memory.write]
    split
    · split
      · exact h
      · intro c hc
        rcases List.mem_cons.1 hc with rfl | hc
        · exact ha
        · exact h c hc
    · split
      · split
        · exact hr
        · intro c hc
          rcases List.mem_cons.1 hc with rfl | hc
          · exact ha
          · exact hr c hc
      · intro c hc
        rcases List.mem_cons.1 hc with rfl | hc
        · exact hk
        · exact ih hr c hc

/-- A write to an address that exists keeps the canonical form. -/
theorem Memory.write_wf {m : Memory} (hm : m.wf = true) {a : Nat} (ha : a < 4096) (b : Byte) : (m.write a b).wf = true := by
  induction m with
  | nil =>
    simp only [Memory.write]
    split
    · exact hm
    · next h => exact (Memory.wf_cons a b []).2 ⟨ha, h, by simp [AllAbove], rfl⟩
  | cons cell rest ih =>
    obtain ⟨k, d⟩ := cell
    obtain ⟨hk, hd, habove, hrest⟩ := (Memory.wf_cons k d rest).1 hm
    simp only [Memory.write]
    split
    · next hlt =>
      split
      · exact hm
      · next hb =>
        refine (Memory.wf_cons a b _).2 ⟨ha, hb, ?_, hm⟩
        intro c hc
        rcases List.mem_cons.1 hc with rfl | hc
        · exact hlt
        · exact lt_trans hlt (habove c hc)
    · split
      · next hge heq =>
        subst heq
        split
        · exact hrest
        · next hb => exact (Memory.wf_cons a b rest).2 ⟨ha, hb, habove, hrest⟩
      · next hge hne =>
        exact (Memory.wf_cons k d _).2 ⟨hk, hd, Memory.write_above habove (by omega), ih hrest⟩

/-- Writing a run of bytes that fits keeps the canonical form. -/
theorem Memory.writeBytes_wf {m : Memory} (hm : m.wf = true) (bytes : List Byte) {a : Nat} (ha : a + bytes.length ≤ 4096) :
    (m.writeBytes a bytes).wf = true := by
  induction bytes generalizing m a with
  | nil => exact hm
  | cons b rest ih =>
    simp only [List.length_cons] at ha
    exact ih (Memory.write_wf hm (by omega) b) (by omega)

/-- Reading after a run of bytes was written: inside the run its byte, outside it what was there before. -/
theorem Memory.read_writeBytes {m : Memory} (hm : m.wf = true) (bytes : List Byte) {a : Nat} (ha : a + bytes.length ≤ 4096) (c : Nat) :
    (m.writeBytes a bytes).read c =
      if a ≤ c ∧ c < a + bytes.length then bytes.getD (c - a) 0 else m.read c := by
  induction bytes generalizing m a with
  | nil => rw [if_neg (by simp only [List.length_nil]; omega)]; rfl
  | cons b rest ih =>
    simp only [List.length_cons] at ha ⊢
    simp only [Memory.writeBytes]
    rw [ih (Memory.write_wf hm (by omega) b) (by omega), Memory.read_write hm]
    by_cases hc : c = a
    · subst hc
      rw [if_neg (by omega), if_pos rfl, if_pos (by omega)]
      simp
    · by_cases hin : a + 1 ≤ c ∧ c < a + 1 + rest.length
      · rw [if_pos hin, if_pos (by omega)]
        obtain ⟨n, rfl⟩ := Nat.exists_eq_add_of_le hin.1
        have e1 : a + 1 + n - (a + 1) = n := by omega
        have e2 : a + 1 + n - a = n + 1 := by omega
        rw [e1, e2, List.getD_cons_succ]
      · rw [if_neg hin, if_neg hc, if_neg (by omega)]

/-- Canonical memories that read alike everywhere are equal as data. -/
theorem Memory.ext_read {m n : Memory} (hm : m.wf = true) (hn : n.wf = true) (h : ∀ a, m.read a = n.read a) : m = n := by
  induction m generalizing n with
  | nil =>
    cases n with
    | nil => rfl
    | cons cell rest =>
      obtain ⟨k, b⟩ := cell
      obtain ⟨-, hb, -, -⟩ := (Memory.wf_cons k b rest).1 hn
      have hk := h k
      simp [Memory.read] at hk
      exact absurd hk.symm hb
  | cons cell rest ih =>
    obtain ⟨k, b⟩ := cell
    obtain ⟨-, hb, habove, hrest⟩ := (Memory.wf_cons k b rest).1 hm
    cases n with
    | nil =>
      have hk := h k
      simp [Memory.read] at hk
      exact absurd hk hb
    | cons cell' rest' =>
      obtain ⟨k', b'⟩ := cell'
      obtain ⟨-, hb', habove', hrest'⟩ := (Memory.wf_cons k' b' rest').1 hn
      have hkk : k = k' := by
        rcases Nat.lt_trichotomy k k' with hlt | heq | hgt
        · have hk := h k
          have hn' : Memory.read ((k', b') :: rest') k = unlistedByte k :=
            Memory.read_below fun c hc => by
              rcases List.mem_cons.1 hc with rfl | hc
              · exact hlt
              · exact lt_trans hlt (habove' c hc)
          rw [hn'] at hk; simp [Memory.read] at hk
          exact absurd hk hb
        · exact heq
        · have hk := h k'
          have hn' : Memory.read ((k, b) :: rest) k' = unlistedByte k' :=
            Memory.read_below fun c hc => by
              rcases List.mem_cons.1 hc with rfl | hc
              · exact hgt
              · exact lt_trans hgt (habove c hc)
          rw [hn'] at hk; simp [Memory.read] at hk
          exact absurd hk.symm hb'
      subst hkk
      have hbb : b = b' := by have hk := h k; simpa [Memory.read] using hk
      subst hbb
      rw [ih hrest hrest' fun a => ?_]
      by_cases hak : k = a
      · subst hak; rw [Memory.read_below habove, Memory.read_below habove']
      · have ha := h a; simpa [Memory.read, hak] using ha

end Sys2Proof.Machine
end

