-- ==== Sys2Proof/Laws/PerInstr.lean ====
section
/-! SUPPORT. Per instruction: the row of spec/opcode_table.json its words match (spec/30_encoding.md R100). -/

namespace Sys2Proof.Laws.RowPattern

/-- The fixed bits of the instruction's row: the table's `mask`. -/
def rowMask (i : Instr) : Word :=
  match i with
  | .scd _ => 0xFFF0
  | .cls => 0xFFFF
  | .ret => 0xFFFF
  | .scr => 0xFFFF
  | .scl => 0xFFFF
  | .exit => 0xFFFF
  | .low => 0xFFFF
  | .high => 0xFFFF
  | .freeze => 0xFFFF
  | .jp _ => 0xF000
  | .call _ => 0xF000
  | .seImm _ _ => 0xF000
  | .sneImm _ _ => 0xF000
  | .seReg _ _ => 0xF00F
  | .ldImm _ _ => 0xF000
  | .addImm _ _ => 0xF000
  | .ldReg _ _ => 0xF00F
  | .or _ _ => 0xF00F
  | .and _ _ => 0xF00F
  | .xor _ _ => 0xF00F
  | .addReg _ _ => 0xF00F
  | .sub _ _ => 0xF00F
  | .shr _ _ => 0xF00F
  | .subn _ _ => 0xF00F
  | .shl _ _ => 0xF00F
  | .sneReg _ _ => 0xF00F
  | .ldI _ => 0xF000
  | .jpV0 _ => 0xF000
  | .rnd _ _ => 0xF000
  | .drw _ _ _ => 0xF000
  | .drw16 _ _ => 0xF00F
  | .skp _ => 0xF0FF
  | .sknp _ => 0xF0FF
  | .ldVxDt _ => 0xF0FF
  | .ldVxK _ => 0xF0FF
  | .ldDt _ => 0xF0FF
  | .ldSt _ => 0xF0FF
  | .addI _ => 0xF0FF
  | .ldF _ => 0xF0FF
  | .ldHf _ => 0xF0FF
  | .ldB _ => 0xF0FF
  | .ldMemVx _ => 0xF0FF
  | .ldVxMem _ => 0xF0FF
  | .ldR _ => 0xF0FF
  | .ldVxR _ => 0xF0FF

/-- The values of the fixed bits: the table's `match`; FREEZE's is the parameter `FREEZE_WORD` (R107). -/
def rowMatch (fw : Option Word) (i : Instr) : Word :=
  match i with
  | .scd _ => 0x00C0
  | .cls => 0x00E0
  | .ret => 0x00EE
  | .scr => 0x00FB
  | .scl => 0x00FC
  | .exit => 0x00FD
  | .low => 0x00FE
  | .high => 0x00FF
  | .freeze => fw.getD 0
  | .jp _ => 0x1000
  | .call _ => 0x2000
  | .seImm _ _ => 0x3000
  | .sneImm _ _ => 0x4000
  | .seReg _ _ => 0x5000
  | .ldImm _ _ => 0x6000
  | .addImm _ _ => 0x7000
  | .ldReg _ _ => 0x8000
  | .or _ _ => 0x8001
  | .and _ _ => 0x8002
  | .xor _ _ => 0x8003
  | .addReg _ _ => 0x8004
  | .sub _ _ => 0x8005
  | .shr _ _ => 0x8006
  | .subn _ _ => 0x8007
  | .shl _ _ => 0x800E
  | .sneReg _ _ => 0x9000
  | .ldI _ => 0xA000
  | .jpV0 _ => 0xB000
  | .rnd _ _ => 0xC000
  | .drw _ _ _ => 0xD000
  | .drw16 _ _ => 0xD000
  | .skp _ => 0xE09E
  | .sknp _ => 0xE0A1
  | .ldVxDt _ => 0xF007
  | .ldVxK _ => 0xF00A
  | .ldDt _ => 0xF015
  | .ldSt _ => 0xF018
  | .addI _ => 0xF01E
  | .ldF _ => 0xF029
  | .ldHf _ => 0xF030
  | .ldB _ => 0xF033
  | .ldMemVx _ => 0xF055
  | .ldVxMem _ => 0xF065
  | .ldR _ => 0xF075
  | .ldVxR _ => 0xF085

/-- Every word of the well-formed instruction matches its row. -/
def Statement (i : Instr) : Prop :=
  ∀ fw : Option Word, WellFormed fw i = true → encode fw i &&& rowMask i = rowMatch fw i

/-! What is left of a word under the mask of its format. -/

/-- Only `w` and `z` are fixed. -/
theorem keep_wz (w x y z : Nibble) : (w ++ x ++ y ++ z : Word) &&& 0xF00F = (w ++ 0x0#4 ++ 0x0#4 ++ z : Word) := by
  apply BitVec.eq_of_getLsbD_eq
  intro k hk
  simp only [BitVec.getLsbD_and, BitVec.getLsbD_append]
  interval_cases k <;> simp

/-- Only `w` is fixed, in the format `w x y z`. -/
theorem keep_w_xyz (w x y z : Nibble) : (w ++ x ++ y ++ z : Word) &&& 0xF000 = (w ++ 0x0#4 ++ 0x0#4 ++ 0x0#4 : Word) := by
  apply BitVec.eq_of_getLsbD_eq
  intro k hk
  simp only [BitVec.getLsbD_and, BitVec.getLsbD_append]
  interval_cases k <;> simp

/-- Only `w` is fixed, in the format `w x kk`. -/
theorem keep_w_xkk (w x : Nibble) (kk : Byte) : (w ++ x ++ kk : Word) &&& 0xF000 = (w ++ 0x0#4 ++ 0x00#8 : Word) := by
  apply BitVec.eq_of_getLsbD_eq
  intro k hk
  simp only [BitVec.getLsbD_and, BitVec.getLsbD_append]
  interval_cases k <;> simp

/-- Only `w` and `kk` are fixed. -/
theorem keep_wkk (w x : Nibble) (kk : Byte) : (w ++ x ++ kk : Word) &&& 0xF0FF = (w ++ 0x0#4 ++ kk : Word) := by
  apply BitVec.eq_of_getLsbD_eq
  intro k hk
  simp only [BitVec.getLsbD_and, BitVec.getLsbD_append]
  interval_cases k <;> simp

/-- Only `w` is fixed, in the format `w nnn`. -/
theorem keep_w_nnn (w : Nibble) (nnn : Addr) : (w ++ nnn : Word) &&& 0xF000 = (w ++ 0x000#12 : Word) := by
  apply BitVec.eq_of_getLsbD_eq
  intro k hk
  simp only [BitVec.getLsbD_and, BitVec.getLsbD_append]
  interval_cases k <;> simp

/-- Every bit is fixed. -/
theorem keep_all (w : Word) : w &&& 0xFFFF = w := BitVec.and_allOnes

/-- SCD's row: all but `z` is fixed. -/
theorem keep_scd (z : Nibble) : (0x00C#12 ++ z : Word) &&& 0xFFF0 = (0x00C#12 ++ 0x0#4 : Word) := by
  apply BitVec.eq_of_getLsbD_eq
  intro k hk
  simp only [BitVec.getLsbD_and, BitVec.getLsbD_append]
  interval_cases k <;> simp

theorem scd (z : Nibble) : Statement (.scd z) := fun _ _ => keep_scd _

theorem cls : Statement .cls := fun _ _ => keep_all _

theorem ret : Statement .ret := fun _ _ => keep_all _

theorem scr : Statement .scr := fun _ _ => keep_all _

theorem scl : Statement .scl := fun _ _ => keep_all _

theorem exit : Statement .exit := fun _ _ => keep_all _

theorem low : Statement .low := fun _ _ => keep_all _

theorem high : Statement .high := fun _ _ => keep_all _

theorem freeze : Statement .freeze := fun _ _ => keep_all _

theorem jp (nnn : Addr) : Statement (.jp nnn) := fun _ _ => keep_w_nnn _ _

theorem call (nnn : Addr) : Statement (.call nnn) := fun _ _ => keep_w_nnn _ _

theorem seImm (x : Nibble) (kk : Byte) : Statement (.seImm x kk) := fun _ _ => keep_w_xkk _ _ _

theorem sneImm (x : Nibble) (kk : Byte) : Statement (.sneImm x kk) := fun _ _ => keep_w_xkk _ _ _

theorem seReg (x : Nibble) (y : Nibble) : Statement (.seReg x y) := fun _ _ => keep_wz _ _ _ _

theorem ldImm (x : Nibble) (kk : Byte) : Statement (.ldImm x kk) := fun _ _ => keep_w_xkk _ _ _

theorem addImm (x : Nibble) (kk : Byte) : Statement (.addImm x kk) := fun _ _ => keep_w_xkk _ _ _

theorem ldReg (x : Nibble) (y : Nibble) : Statement (.ldReg x y) := fun _ _ => keep_wz _ _ _ _

theorem or (x : Nibble) (y : Nibble) : Statement (.or x y) := fun _ _ => keep_wz _ _ _ _

theorem and (x : Nibble) (y : Nibble) : Statement (.and x y) := fun _ _ => keep_wz _ _ _ _

theorem xor (x : Nibble) (y : Nibble) : Statement (.xor x y) := fun _ _ => keep_wz _ _ _ _

theorem addReg (x : Nibble) (y : Nibble) : Statement (.addReg x y) := fun _ _ => keep_wz _ _ _ _

theorem sub (x : Nibble) (y : Nibble) : Statement (.sub x y) := fun _ _ => keep_wz _ _ _ _

theorem shr (x : Nibble) (y : Nibble) : Statement (.shr x y) := fun _ _ => keep_wz _ _ _ _

theorem subn (x : Nibble) (y : Nibble) : Statement (.subn x y) := fun _ _ => keep_wz _ _ _ _

theorem shl (x : Nibble) (y : Nibble) : Statement (.shl x y) := fun _ _ => keep_wz _ _ _ _

theorem sneReg (x : Nibble) (y : Nibble) : Statement (.sneReg x y) := fun _ _ => keep_wz _ _ _ _

theorem ldI (nnn : Addr) : Statement (.ldI nnn) := fun _ _ => keep_w_nnn _ _

theorem jpV0 (nnn : Addr) : Statement (.jpV0 nnn) := fun _ _ => keep_w_nnn _ _

theorem rnd (x : Nibble) (kk : Byte) : Statement (.rnd x kk) := fun _ _ => keep_w_xkk _ _ _

theorem drw (x : Nibble) (y : Nibble) (z : Nibble) : Statement (.drw x y z) := fun _ _ => keep_w_xyz _ _ _ _

theorem drw16 (x : Nibble) (y : Nibble) : Statement (.drw16 x y) := fun _ _ => keep_wz _ _ _ _

theorem skp (x : Nibble) : Statement (.skp x) := fun _ _ => keep_wkk _ _ _

theorem sknp (x : Nibble) : Statement (.sknp x) := fun _ _ => keep_wkk _ _ _

theorem ldVxDt (x : Nibble) : Statement (.ldVxDt x) := fun _ _ => keep_wkk _ _ _

theorem ldVxK (x : Nibble) : Statement (.ldVxK x) := fun _ _ => keep_wkk _ _ _

theorem ldDt (x : Nibble) : Statement (.ldDt x) := fun _ _ => keep_wkk _ _ _

theorem ldSt (x : Nibble) : Statement (.ldSt x) := fun _ _ => keep_wkk _ _ _

theorem addI (x : Nibble) : Statement (.addI x) := fun _ _ => keep_wkk _ _ _

theorem ldF (x : Nibble) : Statement (.ldF x) := fun _ _ => keep_wkk _ _ _

theorem ldHf (x : Nibble) : Statement (.ldHf x) := fun _ _ => keep_wkk _ _ _

theorem ldB (x : Nibble) : Statement (.ldB x) := fun _ _ => keep_wkk _ _ _

theorem ldMemVx (x : Nibble) : Statement (.ldMemVx x) := fun _ _ => keep_wkk _ _ _

theorem ldVxMem (x : Nibble) : Statement (.ldVxMem x) := fun _ _ => keep_wkk _ _ _

theorem ldR (x : Nibble) : Statement (.ldR x) := fun _ _ => keep_wkk _ _ _

theorem ldVxR (x : Nibble) : Statement (.ldVxR x) := fun _ _ => keep_wkk _ _ _

end Sys2Proof.Laws.RowPattern
end

