-- ==== Sys2Proof/Laws/Step.lean ====
section
/-! SUPPORT. What a step can do, said once: which move it makes, and the ways an engine step ends. -/

namespace Sys2Proof.Machine

variable {s t : State}

/-- With no event of the outside world a step is the engine's move. -/
theorem step_of_no_input (h : s.inputs = []) : step s = engineMove s := by
  unfold step move; rw [h]

/-- A run of one step more is a run from the next state. -/
theorem run_succ (n : Nat) (h : step s = .next t) : Sys2Proof.core.run (n + 1) s = Sys2Proof.core.run n t := by
  simp only [Host.Core.run]
  have h' : Sys2Proof.core.step s = .next t := h
  rw [h']

/-- With an event first in line a step is that event on the state without it. -/
theorem step_of_input {e : HostEvent} {rest : List HostEvent} (h : s.inputs = e :: rest) :
    step s = hostEvent e { s with inputs := rest } := by
  unfold step move; rw [h]

/-- On the engine's turn a step is the engine's move. -/
theorem step_of_engineTurn {u : State} (h : EngineTurn s u) : step s = engineMove u := by
  obtain ⟨h, rfl⟩ | ⟨rest, h, rfl⟩ := h
  · exact step_of_no_input h
  · exact step_of_input h

/-- A call of `cycle()` or `cycle_60Hz()` is refused for the first duty broken, else it is the call. -/
theorem driveBy_eq (mode : Driving) (s : State) (call : Result) :
    (∃ f, s.halt = some f ∧ driveBy mode s call = .refused (.calledAfterFault f)) ∨
    (s.halt = none ∧ s.batch ≠ .idle ∧ driveBy mode s call = .refused .callInProgress) ∨
    (s.halt = none ∧ s.batch = .idle ∧ (∃ d, s.driving = some d ∧ d ≠ mode) ∧ driveBy mode s call = .refused .mixedDriving) ∨
    (s.halt = none ∧ s.batch = .idle ∧ (∀ d, s.driving = some d → d = mode) ∧ driveBy mode s call = call) := by
  unfold driveBy
  cases s.halt with
  | some f => exact .inl ⟨f, rfl, rfl⟩
  | none =>
    by_cases hb : s.batch = .idle
    · cases hd : s.driving with
      | none => simp [hb]
      | some d => by_cases hm : d = mode <;> simp [hb, hm]
    · simp [hb]

/-- A call that answers a next state was made with the duties kept. -/
theorem driveBy_eq_next {mode : Driving} {call : Result} (h : driveBy mode s call = .next t) :
    s.halt = none ∧ s.batch = .idle ∧ (∀ d, s.driving = some d → d = mode) ∧ call = .next t := by
  obtain ⟨f, -, hr⟩ | ⟨-, -, hr⟩ | ⟨-, -, -, hr⟩ | ⟨hh, hb, hd, hr⟩ := driveBy_eq mode s call
  · rw [hr] at h; cases h
  · rw [hr] at h; cases h
  · rw [hr] at h; cases h
  · exact ⟨hh, hb, hd, hr ▸ h⟩

theorem engineMove_idle (h : s.batch = .idle) : engineMove s = executeNext s := by
  unfold engineMove; rw [h]

theorem engineMove_lastTick {now : Nat} (h : s.batch = .cycleTicks now 0) : engineMove s = .next (askCpuClock now s) := by
  unfold engineMove; rw [h]

theorem engineMove_tick {now left : Nat} (h : s.batch = .cycleTicks now (left + 1)) :
    engineMove s = .next { tick s with batch := .cycleTicks now left } := by
  unfold engineMove; rw [h]

theorem engineMove_return (h : s.batch = .steps 0) : engineMove s = .next { s with batch := .idle } := by
  unfold engineMove; rw [h]

theorem engineMove_step {left : Nat} (h : s.batch = .steps (left + 1)) :
    engineMove s = endBatch (executeNext { s with batch := .steps left }) := by
  unfold engineMove; rw [h]

/-- A batch that ends changes no cell but its own. -/
theorem endBatch_eq_next {r : Result} (h : endBatch r = .next t) : ∃ u, r = .next u ∧ (t = u ∨ t = { u with batch := .idle }) := by
  cases r with
  | next u =>
    simp only [endBatch] at h
    split at h
    · exact ⟨u, rfl, .inl (Host.Outcome.next.inj h).symm⟩
    · exact ⟨u, rfl, .inr (Host.Outcome.next.inj h).symm⟩
  | fault f => cases h
  | refused q => cases h

theorem executeNext_halted {f : CoreFault} (h : s.halt = some f) : executeNext s = .fault (.halted f) := by
  unfold executeNext; rw [h]

theorem executeNext_fetchFault {f : CoreFault} (h : s.halt = none) (hf : fetch s = .error f) :
    executeNext s = .next { s.clearSignal with halt := some f } := by
  unfold executeNext; rw [h]; simp only [hf]; rfl

theorem executeNext_invalid {op : Word} {e : DecodeError} (h : s.halt = none) (hf : fetch s = .ok op)
    (hd : decodeWord s.params.freezeWord op = .error e) :
    executeNext s = .next { s.clearSignal with halt := some (.invalidInstruction op) } := by
  unfold executeNext; rw [h]; simp only [hf, runWord, State.clearSignal_params, hd]; rfl

theorem executeNext_runs {op : Word} {i : Instr} (h : s.halt = none) (hf : fetch s = .ok op)
    (hd : decodeWord s.params.freezeWord op = .ok i) : executeNext s = exec i s.clearSignal := by
  unfold executeNext; rw [h]; simp only [hf, runWord, State.clearSignal_params, hd]

/-- The ways an engine step answers a next state: a fetch fault, an invalid word, or an instruction. -/
theorem executeNext_cases (h : executeNext s = .next t) :
    s.halt = none ∧
    ((∃ f, fetch s = .error f ∧ t = { s.clearSignal with halt := some f }) ∨
     (∃ op e, fetch s = .ok op ∧ decodeWord s.params.freezeWord op = .error e ∧
        t = { s.clearSignal with halt := some (.invalidInstruction op) }) ∨
     ∃ op i, fetch s = .ok op ∧ decodeWord s.params.freezeWord op = .ok i ∧ exec i s.clearSignal = .next t) := by
  cases hh : s.halt with
  | some f => rw [executeNext_halted hh] at h; cases h
  | none =>
    refine ⟨rfl, ?_⟩
    cases hf : fetch s with
    | error f => rw [executeNext_fetchFault hh hf] at h; cases h; exact .inl ⟨f, rfl, rfl⟩
    | ok op =>
      cases hd : decodeWord s.params.freezeWord op with
      | error e => rw [executeNext_invalid hh hf hd] at h; cases h; exact .inr (.inl ⟨op, e, rfl, hd, rfl⟩)
      | ok i => rw [executeNext_runs hh hf hd] at h; exact .inr (.inr ⟨op, i, rfl, hd, h⟩)

/-- A fetch that succeeds was at or below 4094. -/
theorem pc_le_of_fetch {op : Word} (h : fetch s = .ok op) : s.pc.toNat ≤ 4094 := by
  by_contra hp
  rw [fetch_outOfRange (by omega)] at h
  cases h

/-- Memory is canonical at reset. -/
theorem State.reset_mem_wf : State.reset.mem.wf = true := rfl

/-- Placing a word for the next fetch keeps memory canonical. -/
theorem State.withFetchWord_mem_wf (h : s.mem.wf = true) (nbits w : Nat) : (s.withFetchWord nbits w).mem.wf = true := by
  refine Memory.writeBytes_wf h _ ?_
  have hp : (placePc s).toNat ≤ 4094 := by
    unfold placePc
    split
    · decide
    · omega
  simp only [tableBytes, bytesOfWord, List.length_cons, List.length_nil]
  omega

/-- A placed word is the word the next fetch gives. -/
theorem State.withFetchWord_fetch (h : s.mem.wf = true) (w : Word) : fetch (s.withFetchWord 16 w.toNat) = .ok w := by
  have hp : (placePc s).toNat ≤ 4094 := by
    unfold placePc
    split
    · decide
    · omega
  rw [fetch_inRange (s := s.withFetchWord 16 w.toNat) hp]
  have hb : tableBytes 16 w.toNat = bytesOfWord w := by
    unfold tableBytes
    rw [Nat.mod_eq_of_lt w.isLt, BitVec.ofNat_toNat, BitVec.setWidth_eq]
  simp only [State.withFetchWord, hb]
  rw [Memory.read_writeBytes h _ (by simp [bytesOfWord]; omega), Memory.read_writeBytes h _ (by simp [bytesOfWord]; omega)]
  simp [bytesOfWord]

end Sys2Proof.Machine
end

