-- ==== Sys2Proof/Tests/Slice0.lean ====
section
/-! SUPPORT. Small tests: expected results are those of spec/95_test_vectors.md (the vector's name stands in each comment) or of the table
of spec/30_encoding.md R100; then, for every statement with hypotheses, states and operands that meet them. -/

open Sys2Proof Sys2Proof.Machine

namespace Sys2Proof.Tests

/-! ## Helpers -/

/-- The reset state with a word at 0x200 and some registers set. -/
def start (word : Nat) (regs : List (Nibble × Byte)) : State :=
  regs.foldl (fun s p => s.setReg p.1 p.2) (State.reset.withFetchWord 16 word)

/-- What a result's next state shows; nothing when there is none. -/
def seen {α : Type} (view : State → α) (r : Result) : Option α :=
  match r with
  | .next t => some (view t)
  | .fault _ => none
  | .refused _ => none

/-- The lit pixels of a row, by column. -/
def litIn (d : Display) (r : Nat) : List Nat := (List.range d.width).filter fun c => d.pix r c

/-- A picture with the given pixels, (row, column), lit. -/
def picture (hires : Bool) (lit : List (Nat × Nat)) : Display :=
  lit.foldl (fun d p => d.setPix p.1 p.2 true) (Display.blank hires)

/-- The low-res picture of V-D9. -/
def pictureD9 : Display := picture false [(0, 0), (0, 63), (31, 5), (30, 6)]

/-- The hi-res picture of V-D15. -/
def pictureD15 : Display := picture true [(7, 4), (7, 3), (0, 127), (60, 124), (63, 0)]

/-- The parameters with the flag written first. -/
def flagFirst : Params := { Params.default with vfWriteLast := false }

/-- The parameters with the shifts reading Vy. -/
def shiftVy : Params := { Params.default with shiftUsesVy := true }

/-- The parameters with a FREEZE word. -/
def withFreeze : Params := { Params.default with freezeWord := some 0x00FA }

/-! ## Well-formedness: an ill-formed term for each check -/

theorem test_wf_draw_height_zero : WellFormed none (.drw 1 2 0) = false := by decide
theorem test_wf_draw_height_one : WellFormed none (.drw 1 2 1) = true := by decide
theorem test_wf_freeze_without_word : WellFormed none .freeze = false := by decide
theorem test_wf_freeze_word_is_cls : WellFormed (some 0x00E0) .freeze = false := by decide
theorem test_wf_freeze_word_is_scd : WellFormed (some 0x00C7) .freeze = false := by decide
theorem test_wf_freeze_word_family_1 : WellFormed (some 0x1000) .freeze = false := by decide
theorem test_wf_freeze_with_word : WellFormed (some 0x00FA) .freeze = true := by decide

/-! ## Decoding: a word written out from R100 for every instruction -/

theorem test_decode_zero :
    [0x00C3, 0x00E0, 0x00EE, 0x00FB, 0x00FC, 0x00FD, 0x00FE, 0x00FF].map (decodeTableWord 16) =
      [some (.scd 3), some .cls, some .ret, some .scr, some .scl, some .exit, some .low, some .high] := by decide

theorem test_decode_freeze : decodeWord (some 0x00FA) 0x00FA = .ok .freeze := rfl

theorem test_decode_jumps_and_skips :
    [0x1301, 0x220C, 0x3B05, 0x4207, 0x5AB0, 0x9CD0, 0xBFFE].map (decodeTableWord 16) =
      [some (.jp 0x301), some (.call 0x20C), some (.seImm 0xB 5), some (.sneImm 2 7), some (.seReg 0xA 0xB),
        some (.sneReg 0xC 0xD), some (.jpV0 0xFFE)] := by decide

theorem test_decode_loads : [0x6FAB, 0x70FE, 0xA30F, 0xC31E].map (decodeTableWord 16) =
    [some (.ldImm 0xF 0xAB), some (.addImm 0 0xFE), some (.ldI 0x30F), some (.rnd 3 0x1E)] := by decide

theorem test_decode_alu :
    [0x8120, 0x8121, 0x8122, 0x8123, 0x8124, 0x8125, 0x8346, 0x8127, 0x834E].map (decodeTableWord 16) =
      [some (.ldReg 1 2), some (.or 1 2), some (.and 1 2), some (.xor 1 2), some (.addReg 1 2), some (.sub 1 2), some (.shr 3 4),
        some (.subn 1 2), some (.shl 3 4)] := by decide

theorem test_decode_draw_and_keys : [0xD012, 0xD230, 0xE59E, 0xE5A1].map (decodeTableWord 16) =
    [some (.drw 0 1 2), some (.drw16 2 3), some (.skp 5), some (.sknp 5)] := by decide

theorem test_decode_misc :
    [0xF407, 0xF30A, 0xF315, 0xF418, 0xF21E, 0xF429, 0xF530, 0xFA33, 0xF255, 0xFF65, 0xF775, 0xF185].map (decodeTableWord 16) =
      [some (.ldVxDt 4), some (.ldVxK 3), some (.ldDt 3), some (.ldSt 4), some (.addI 2), some (.ldF 4), some (.ldHf 5),
        some (.ldB 0xA), some (.ldMemVx 2), some (.ldVxMem 0xF), some (.ldR 7), some (.ldVxR 1)] := by decide

/-- Section 2.3 of the vectors: the words listed there are invalid. -/
theorem test_decode_invalid :
    [0x0000, 0x00E1, 0x01E0, 0x00BF, 0x00D0, 0x00FA, 0x0123, 0x5121, 0x512F, 0x8128, 0x812D, 0x812F, 0x9121, 0xE000, 0xE19F,
      0xE0A2, 0xF000, 0xF101, 0xF1FF, 0xFF90].all (fun w => decodeTableWord 16 w == none) = true := by decide

/-- Section 2.3: their valid neighbours. -/
theorem test_decode_neighbours : [0x00C0, 0x00CF, 0x812E, 0x5120, 0xE19E, 0xF365].map (decodeTableWord 16) =
    [some (.scd 0), some (.scd 0xF), some (.shl 1 2), some (.seReg 1 2), some (.skp 1), some (.ldVxMem 3)] := by decide

/-! ## Loads and arithmetic (V-A) -/

/-- V-A1 -/
theorem test_add_carries :
    seen (fun t => (t.reg 1, t.vf, t.pc)) (step (start 0x8124 [(1, 0xFF), (2, 0x01)])) = some (0x00, 1, 0x202) := by decide
/-- V-A6: the old VF is the operand. -/
theorem test_add_reads_old_vf :
    seen (fun t => (t.reg 1, t.vf)) (step (start 0x81F4 [(1, 0xFF), (15, 0x01)])) = some (0x00, 1) := by decide
/-- V-A5, both orders of the writes -/
theorem test_add_to_vf : (seen State.vf (step (start 0x8F14 [(15, 0xF0), (1, 0x20)])),
    seen State.vf (step { start 0x8F14 [(15, 0xF0), (1, 0x20)] with params := flagFirst })) = (some 0x01, some 0x10) := by decide
/-- V-A8: equal operands, no flag -/
theorem test_sub_equal : seen (fun t => (t.reg 1, t.vf)) (step (start 0x8125 [(1, 5), (2, 5), (15, 9)])) = some (0, 0) := by decide
/-- V-A9 -/
theorem test_sub_wraps : seen (fun t => (t.reg 1, t.vf)) (step (start 0x8125 [(1, 5), (2, 6)])) = some (0xFF, 0) := by decide
/-- V-A12 -/
theorem test_subn : seen (fun t => (t.reg 1, t.vf, t.reg 2)) (step (start 0x8127 [(1, 0x10), (2, 0x20)])) =
    some (0x10, 1, 0x20) := by decide
/-- V-A14 -/
theorem test_subn_wraps : seen (fun t => (t.reg 1, t.vf)) (step (start 0x8127 [(1, 2), (2, 1)])) = some (0xFF, 0) := by decide
/-- V-A15, both sources -/
theorem test_shr : (seen (fun t => (t.reg 3, t.vf, t.reg 4)) (step (start 0x8346 [(3, 0x0D), (4, 0xF0)])),
    seen (fun t => (t.reg 3, t.vf)) (step { start 0x8346 [(3, 0x0D), (4, 0xF0)] with params := shiftVy })) =
      (some (0x06, 1, 0xF0), some (0x78, 0)) := by decide
/-- V-A18 -/
theorem test_shr_vf : (seen State.vf (step (start 0x8F06 [(15, 6)])),
    seen State.vf (step { start 0x8F06 [(15, 6)] with params := flagFirst })) = (some 0, some 3) := by decide
/-- V-A21 -/
theorem test_shl_flag_128 : seen (fun t => (t.reg 3, t.vf)) (step (start 0x833E [(3, 0xC1)])) = some (0x82, 0x80) := by decide
/-- V-A23, both sources -/
theorem test_shl_source : (seen (fun t => (t.reg 3, t.vf)) (step (start 0x834E [(3, 0x41), (4, 0x81)])),
    seen (fun t => (t.reg 3, t.vf)) (step { start 0x834E [(3, 0x41), (4, 0x81)] with params := shiftVy })) =
      (some (0x82, 0), some (0x02, 0x80)) := by decide
/-- V-A25 -/
theorem test_or : seen (fun t => (t.reg 1, t.vf)) (step (start 0x8121 [(1, 0xF0), (2, 0x0C), (15, 0x55)])) = some (0xFC, 0x55) := by
  decide
/-- V-A26 -/
theorem test_and : seen (fun t => t.reg 1) (step (start 0x8122 [(1, 0xF0), (2, 0x3C)])) = some 0x30 := by decide
/-- V-A27 -/
theorem test_xor : seen (fun t => (t.reg 1, t.vf)) (step (start 0x8113 [(1, 0xAB), (15, 0x55)])) = some (0x00, 0x55) := by decide
/-- V-A28 -/
theorem test_ldReg : seen (fun t => t.reg 1) (step (start 0x8120 [(2, 0x7E)])) = some 0x7E := by decide
/-- V-A29 -/
theorem test_addImm : seen (fun t => (t.reg 0, t.vf)) (step (start 0x70FF [(0, 1), (15, 7)])) = some (0, 7) := by decide
/-- V-A31 -/
theorem test_ldImm : seen (fun t => (t.vf, t.pc)) (step (start 0x6FAB [])) = some (0xAB, 0x202) := by decide

/-! ## Control flow (V-C) and fetch (V-F) -/

/-- V-C1, V-C2 -/
theorem test_seImm : (seen State.pc (step (start 0x3B00 [])), seen State.pc (step (start 0x3B00 [(0xB, 1)]))) =
    (some 0x204, some 0x202) := by decide
/-- V-C3 -/
theorem test_sneImm : (seen State.pc (step (start 0x4207 [(2, 7)])), seen State.pc (step (start 0x4208 [(2, 7)]))) =
    (some 0x202, some 0x204) := by decide
/-- V-C4 -/
theorem test_seReg : seen State.pc (step (start 0x5AA0 [(0xA, 9)])) = some 0x204 := by decide
/-- V-C4 -/
theorem test_sneReg : seen State.pc (step (start 0x9AA0 [(0xA, 9)])) = some 0x202 := by decide
/-- V-C5: an odd target is no fault here. -/
theorem test_jp : seen (fun t => (t.pc, t.halt)) (step (start 0x1301 [])) = some (0x301, none) := by decide
/-- V-C6 -/
theorem test_jpV0 : seen State.pc (step (start 0xBFFF [(0, 0xFF)])) = some 0x10FE := by decide
/-- V-C7 -/
theorem test_ret_underflow :
    seen (fun t => (t.halt, t.pc, t.sp)) (step (start 0x00EE [])) = some (some .stackUnderflow, 0x200, 0) := by decide
/-- V-C8 -/
theorem test_ret : seen (fun t => (t.sp, t.pc, t.stack[0]))
    (step { start 0x00EE [] with sp := 1, stack := (Vector.replicate 16 0).set 0 0x206 }) = some (0, 0x208, 0x206) := by decide
/-- V-C9, the seventeenth step -/
theorem test_call_overflow :
    seen (fun t => (t.halt, t.sp, t.pc)) (step { start 0x2200 [] with sp := 16 }) = some (some .stackOverflow, 16, 0x200) := by decide
/-- V-C10 -/
theorem test_call :
    seen (fun t => (t.stack[0], t.sp, t.pc)) (step ({ State.reset with pc := 0x206 }.withFetchWord 16 0x220C)) =
      some (0x206, 1, 0x20C) := by decide
/-- V-C11 -/
theorem test_exit : seen (fun t => (lastOutcome t, t.pc, t.halt)) (step (start 0x00FD [])) = some (.signal .exit, 0x200, none) := by
  decide
/-- V-C13, with the word set and without -/
theorem test_freeze : (seen (fun t => (lastOutcome t, t.pc)) (step { start 0x00FA [] with params := withFreeze }),
    seen lastOutcome (step (start 0x00FA []))) = (some (.signal .freeze, 0x200), some (.fault (.invalidInstruction 0x00FA))) := by
  decide
/-- V-F1, V-F2 -/
theorem test_fetch_out_of_range : (seen (fun t => (t.halt, t.pc)) (step { State.reset with pc := 4095 }),
    seen State.halt (step { State.reset with pc := 4096 })) =
      (some (some (.memoryOutOfRange 4095), 4095), some (some (.memoryOutOfRange 4096))) := by decide
/-- V-F3 -/
theorem test_fetch_last_word : seen (fun t => (t.reg 0, t.pc)) (step ({ State.reset with pc := 4094 }.withFetchWord 16 0x6001)) =
    some (1, 4096) := by decide
/-- V-F4: an odd fetch, big-endian -/
theorem test_fetch_odd :
    seen (fun t => (t.reg 0xA, t.pc)) (step { State.reset with pc := 0x301, mem := [(0x301, 0x6A), (0x302, 0x2A)] }) =
      some (0x2A, 0x303) := by decide
/-- V-F5 -/
theorem test_fetch_big_endian : seen State.halt (step { State.reset with mem := [(0x200, 0x05), (0x201, 0x60)] }) =
    some (some (.invalidInstruction 0x0560)) := by decide

/-! ## Address register, memory, flag bank (V-M) -/

/-- V-M1 -/
theorem test_ldI : seen State.i (step (start 0xA300 [])) = some 0x300 := by decide
/-- V-M3 -/
theorem test_addI_no_flag : seen (fun t => (t.i, t.vf)) (step { start 0xF21E [(2, 1), (15, 5)] with i := 0x0FFF }) =
    some (0x1000, 5) := by decide
/-- V-M4 -/
theorem test_addI_wraps : seen State.i (step { start 0xF21E [(2, 1)] with i := 0xFFFF }) = some 0 := by decide
/-- V-M5, V-M6 -/
theorem test_ldF : (seen State.i (step (start 0xF429 [(4, 0x0A)])), seen State.i (step (start 0xF429 [(4, 0xFF)]))) =
    (some 50, some 1275) := by decide
/-- V-M7 -/
theorem test_ldHf : (seen State.i (step (start 0xF430 [(4, 3)])), seen State.i (step (start 0xF430 [(4, 255)]))) =
    (some 110, some 2630) := by decide
/-- V-M8 -/
theorem test_ldB : seen (fun t => (t.mem.read 0x300, t.mem.read 0x301, t.mem.read 0x302))
    (step { start 0xFA33 [(0xA, 255)] with i := 0x300 }) = some (2, 5, 5) := by decide
/-- V-M11 -/
theorem test_ldB_fault : seen (fun t => (t.halt, t.mem.read 0xFFE, t.mem.read 0xFFF))
    (step { start 0xF033 [(0, 123)] with i := 0xFFE }) = some (some (.memoryOutOfRange 0xFFE), 0, 0) := by decide
/-- V-M12 -/
theorem test_ldMemVx : seen (fun t => ([0x400, 0x401, 0x402, 0x403].map t.mem.read, t.i))
    (step { start 0xF255 [(0, 1), (1, 2), (2, 3), (3, 4)] with i := 0x400 }) = some ([1, 2, 3, 0], 0x400) := by decide
/-- V-M13 -/
theorem test_ldMemVx_fault : seen (fun t => (t.halt, t.mem.read 0xFFE))
    (step { start 0xF255 [(0, 1)] with i := 0xFFE }) = some (some (.memoryOutOfRange 0xFFE), 0) := by decide
/-- V-M14 -/
theorem test_ldVxMem : seen (fun t => (t.reg 0, t.reg 0xE, t.vf, t.i))
    (step ({ State.reset with i := 0xFF0, mem := [(0xFF0, 0x11), (0xFFF, 0x99)] }.withFetchWord 16 0xFF65)) =
      some (0x11, 0, 0x99, 0xFF0) := by decide
/-- V-M15 -/
theorem test_ldVxMem_fault : seen (fun t => (t.halt, t.reg 0)) (step { start 0xFF65 [(0, 9)] with i := 0xFF1 }) =
    some (some (.memoryOutOfRange 0xFF1), 9) := by decide
/-- V-M16 -/
theorem test_ldR : seen (fun t => t.fb.toList) (step (start 0xF775 [(0, 1), (7, 8)])) = some [1, 0, 0, 0, 0, 0, 0, 8] := by decide
/-- V-M17 -/
theorem test_ldR_fault : seen (fun t => (t.halt, t.fb[0])) (step (start 0xF875 [(0, 1)])) = some (some (.flagIndexOutOfRange 8), 0) := by
  decide
/-- V-M19 -/
theorem test_ldVxR : seen (fun t => (t.reg 0, t.reg 1, t.reg 2))
    (step { start 0xF185 [(2, 0x77)] with fb := ((Vector.replicate 8 0).set 0 9).set 1 8 }) = some (9, 8, 0x77) := by decide
/-- V-M18 -/
theorem test_ldVxR_fault : seen State.halt (step (start 0xFF85 [])) = some (some (.flagIndexOutOfRange 15)) := by decide

/-! ## Keyboard, timers, random (V-K) -/

/-- V-K3 -/
theorem test_skp : seen State.pc (step { start 0xE09E [(0, 15)] with keys := (Vector.replicate 16 false).set 15 true }) =
    some 0x204 := by decide
/-- V-K4 -/
theorem test_skp_fault : seen (fun t => (t.halt, t.pc)) (step (start 0xE09E [(0, 16)])) =
    some (some (.keyIndexOutOfRange 16), 0x200) := by decide
/-- V-K3 -/
theorem test_sknp : seen State.pc (step { start 0xE0A1 [(0, 15)] with keys := (Vector.replicate 16 false).set 15 true }) =
    some 0x202 := by decide
/-- V-K4 -/
theorem test_sknp_fault : seen State.halt (step (start 0xE0A1 [(0, 255)])) = some (some (.keyIndexOutOfRange 255)) := by decide
/-- V-K5, the first step -/
theorem test_ldVxK_arms : seen (fun t => (t.pc, t.wait, t.reg 3)) (step (start 0xF30A [])) = some (0x200, .waiting, 0) := by decide
/-- V-K6, the last step -/
theorem test_ldVxK_consumes : seen (fun t => (t.reg 3, t.wait, t.pc)) (step { start 0xF30A [] with wait := .keyPressed 12 }) =
    some (12, .noWait, 0x202) := by decide
/-- V-K6, the call -/
theorem test_toggleKey_wakes : seen (fun t => (t.wait, t.keys[12]))
    (step { State.reset with wait := .waiting, inputs := [.toggleKey 12 true] }) = some (.keyPressed 12, true) := by decide
/-- V-K7, the call: a press while nothing waits only sets the key. -/
theorem test_toggleKey_no_wait : seen (fun t => (t.wait, t.keys[5])) (step { State.reset with inputs := [.toggleKey 5 true] }) =
    some (.noWait, true) := by decide
/-- V-K10 -/
theorem test_ldVxDt : seen (fun t => t.reg 4) (step { start 0xF407 [] with dt := 0x16 }) = some 0x16 := by decide
/-- V-K11 -/
theorem test_ldDt : seen (fun t => (t.dt, t.st)) (step (start 0xF315 [(3, 0x18)])) = some (0x18, 0) := by decide
/-- V-K11 -/
theorem test_ldSt : seen (fun t => (t.dt, t.st)) (step (start 0xF318 [(3, 0x18)])) = some (0, 0x18) := by decide
/-- V-K13 -/
theorem test_tick : seen (fun t => (t.dt, t.st)) (step { State.reset with dt := 0, st := 255, inputs := [.tick] }) =
    some (0, 254) := by decide
/-- V-K15 -/
theorem test_rnd : seen (fun t => (t.reg 3, t.draws)) (step { start 0xC30F [] with rndSource := .constant 0xA7 }) = some (0x07, 1) := by
  decide
/-- V-K16: a byte is still drawn. -/
theorem test_rnd_mask_zero : seen (fun t => (t.reg 3, t.rndSource)) (step { start 0xC300 [(3, 9)] with rndSource := .script [0xA7, 1] }) =
    some (0, .script [1]) := by decide

/-! ## Display (V-D): the pictures are lists of up to 64 rows of 128 pixels, which the default recursion depth does not reach -/

set_option maxRecDepth 8000

/-- V-D1 -/
theorem test_drw_wraps : seen (fun t => (litIn t.display 31, litIn t.display 0, t.vf, t.pc))
    (step ({ start 0 [(0, 62), (1, 31)] with i := 0x300, mem := [(0x300, 0xC3), (0x301, 0x80)] }.withFetchWord 16 0xD012)) =
      some ([4, 5, 62, 63], [62], 0, 0x202) := by decide
/-- V-D5 -/
theorem test_drw_collides : seen (fun t => (litIn t.display 0, t.vf))
    (step ({ (State.reset.withDisplay (picture false [(0, 3), (0, 4)])).setI 0x300 with mem := [(0x300, 0xF0)] }.withFetchWord 16 0xD011)) =
      some ([0, 1, 2, 4], 1) := by decide
/-- V-D8 -/
theorem test_drw16_hires : seen (fun t => (litIn t.display 0, t.vf))
    (step ({ ((start 0 [(2, 124)]).withDisplay (Display.blank true)).setI 0x400 with mem := [(0x400, 0xFF), (0x401, 0x01)] }.withFetchWord
      16 0xD230)) = some ([0, 1, 2, 3, 11, 124, 125, 126, 127], 0) := by decide
/-- V-D25: low-res, the right bytes are not drawn. -/
theorem test_drw16_lowres : seen (fun t => (litIn t.display 0, litIn t.display 15, t.vf))
    (step ({ State.reset with i := 0xFE0, mem := [(0xFE0, 0x80), (0xFE1, 0xFF), (0xFFE, 0x01)] }.withFetchWord 16 0xD010)) =
      some ([0], [7], 0) := by decide
/-- V-D22 -/
theorem test_drw_fault : seen (fun t => (t.halt, t.vf)) (step { start 0xD012 [(15, 3)] with i := 0xFFF }) =
    some (some (.memoryOutOfRange 0xFFF), 3) := by decide
/-- V-D24 -/
theorem test_drw16_fault : seen State.halt (step { start 0xD010 [] with i := 0xFE1 }) = some (some (.memoryOutOfRange 0xFE1)) := by decide
/-- V-D9, V-D10 -/
theorem test_scd_lowres : (seen (fun t => decide (t.display = pictureD9)) (step { start 0x00C1 [] with display := pictureD9 }),
    seen (fun t => decide (t.display = picture false [(1, 0), (1, 63), (31, 6)])) (step { start 0x00C3 [] with display := pictureD9 })) =
      (some true, some true) := by decide
/-- V-D16 -/
theorem test_scd_hires : seen (fun t => decide (t.display = picture true [(11, 4), (11, 3), (4, 127)]))
    (step { start 0x00C4 [] with display := pictureD15 }) = some true := by decide
/-- V-D13 -/
theorem test_scr_lowres : seen (fun t => decide (t.display = picture false [(0, 2), (31, 7), (30, 8)]))
    (step { start 0x00FB [] with display := pictureD9 }) = some true := by decide
/-- V-D15 -/
theorem test_scr_hires : seen (fun t => decide (t.display = picture true [(7, 8), (7, 7), (63, 4)]))
    (step { start 0x00FB [] with display := pictureD15 }) = some true := by decide
/-- V-D14 -/
theorem test_scl_lowres : seen (fun t => decide (t.display = picture false [(0, 61), (31, 3), (30, 4)]))
    (step { start 0x00FC [] with display := pictureD9 }) = some true := by decide
/-- V-D15 -/
theorem test_scl_hires : seen (fun t => decide (t.display = picture true [(7, 0), (0, 123), (60, 120)]))
    (step { start 0x00FC [] with display := pictureD15 }) = some true := by decide
/-- V-D17, V-D19 -/
theorem test_high : (seen (fun t => decide (t.display = Display.blank true)) (step { start 0x00FF [] with display := pictureD9 }),
    seen (fun t => decide (t.display = pictureD15)) (step { start 0x00FF [] with display := pictureD15 })) =
      (some true, some true) := by decide
/-- V-D18, V-D20 -/
theorem test_low : (seen (fun t => decide (t.display = pictureD9)) (step { start 0x00FE [] with display := pictureD9 }),
    seen (fun t => decide (t.display = Display.blank false)) (step { start 0x00FE [] with display := pictureD15 })) =
      (some true, some true) := by decide
/-- V-D21 -/
theorem test_cls : seen (fun t => (decide (t.display = Display.blank true), t.pc)) (step { start 0x00E0 [] with display := pictureD15 }) =
    some (true, 0x202) := by decide

/-! ## Timing engine and reset (V-T, V-R) -/

/-- V-T3: 1 tick is due, then 8 steps. -/
theorem test_cycle : (seen (fun t => (t.batch, t.tmr.last)) (callCycle 16666667 State.reset),
    (askCpuClock 16666667 State.reset).batch, (askCpuClock 16666667 State.reset).cpu.last) =
      (some (.cycleTicks 16666667 1, 16666667), .steps 8, 16666667) := by decide
/-- V-T1: nothing is due and no clock moves. -/
theorem test_cycle_nothing_due : (due State.reset.cpu 1999999, due State.reset.tmr 1999999) =
    ((0, State.reset.cpu), (0, State.reset.tmr)) := by decide
/-- V-T7 -/
theorem test_cycle60Hz : seen (fun t => (t.dt, t.batch, t.tmr)) (step { State.reset with dt := 2, inputs := [.cycle60Hz] }) =
    some (1, .steps 8, State.reset.tmr) := by decide
/-- V-T9 -/
theorem test_setClock : (seen (fun t => (t.cpu.period, t.ratio)) (step { State.reset with inputs := [.setClock 59] }),
    seen (fun t => (t.cpu.period, t.ratio)) (step { State.reset with inputs := [.setClock 60] })) =
      (some (16949152, 0), some (16666666, 1)) := by decide
/-- V-T10 -/
theorem test_incrementClock : seen (fun t => (t.clockHz, t.cpu.period, t.ratio)) (step { State.reset with inputs := [.incrementClock 100] }) =
    some (600, 1666666, 10) := by decide
/-- V-T12, the second step: it faults, and the call returns. -/
theorem test_batch_stops_at_fault : seen (fun t => (t.halt, t.batch)) (step { State.reset with batch := .steps 2 }) =
    some (some (.invalidInstruction 0), .idle) := by decide
/-- V-R1 -/
theorem test_construct : seen (fun t => ([0x200, 0x201, 0x202, 0x203, 0x204].map t.mem.read, t.mem.read 0, t.mem.read 79, t.mem.read 240, t.pc))
    (construct [0x60, 0x05, 0x70, 0x03] none Params.default .free) = some ([0x60, 0x05, 0x70, 0x03, 0], 0xF0, 0x80, 0, 0x200) := by decide
/-- V-R2: the first step from the bare reset. -/
theorem test_reset_first_step : seen State.halt (step State.reset) = some (some (.invalidInstruction 0)) := by decide
/-- V-R6 -/
theorem test_warm_reset : seen (fun t => (t.display.hires, t.keys[4], t.dt, t.fb[2], t.wait, t.clockHz))
    (step { State.reset with
      display := pictureD15
      keys := (Vector.replicate 16 false).set 4 true
      dt := 9
      wait := .waiting
      fb := (Vector.replicate 8 0).set 2 7
      clockHz := 1000
      inputs := [.reset] }) =
      some (false, true, 0, 0, .noWait, 1000) := by decide

/-! ## Witnesses: states and operands that meet the hypotheses of each statement, one for each clause, at the ends of its range -/

/-- A key held down at the top of the keypad. -/
def keyFDown : Vector Bool 16 := (Vector.replicate 16 false).set 15 true

theorem witness_DecodeEncodeRoundTrip :
    WellFormed none (.drw 1 2 15) = true ∧ WellFormed none (.drw 1 2 1) = true ∧ WellFormed (some 0x00FA) .freeze = true ∧
    WellFormed none (.scd 0) = true := by decide

theorem witness_EncodeDecodeRoundTrip :
    ((some (0x00FA : Word)).all legalFreezeWord = true ∧ decodeWord (some 0x00FA) 0x00FA = .ok .freeze) ∧
    ((none : Option Word).all legalFreezeWord = true ∧ decodeWord none 0xFF85 = .ok (.ldVxR 15)) :=
  ⟨⟨rfl, rfl⟩, ⟨rfl, rfl⟩⟩

/-- Legal parameters, and an invalid word of each of the five families. -/
theorem witness_InvalidWordsExactly :
    (none : Option Word).all legalFreezeWord = true ∧ (some (0x0FFF : Word)).all legalFreezeWord = true ∧
    decodeWord none 0x0FFF = .error (.invalid 0x0FFF) ∧ decodeWord none 0x5001 = .error (.invalid 0x5001) ∧
    decodeWord none 0x800F = .error (.invalid 0x800F) ∧ decodeWord none 0xE0FF = .error (.invalid 0xE0FF) ∧
    decodeWord none 0xF000 = .error (.invalid 0xF000) := ⟨rfl, rfl, rfl, rfl, rfl, rfl, rfl⟩

theorem start_ready (word : Nat) : ReadyToStep (start word []) := ⟨rfl, rfl, rfl⟩

/-- At 0x200, and at the last address a word can be fetched from; with no event listed, and with the engine's move first in line. -/
theorem witness_StepRunsDecodedInstruction :
    ((start 0x6005 []).halt = none ∧ (start 0x6005 []).pc.toNat ≤ 4094 ∧ (start 0x6005 []).batch = .idle ∧
      decodeWord (start 0x6005 []).params.freezeWord (wordAtPc (start 0x6005 [])) = .ok (.ldImm 0 5) ∧
      EngineTurn (start 0x6005 []) (start 0x6005 []) ∧
      EngineTurn { start 0x6005 [] with inputs := [.advance] } (start 0x6005 [])) ∧
    (({ State.reset with pc := 4094 }.withFetchWord 16 0x6001).halt = none ∧
      ({ State.reset with pc := 4094 }.withFetchWord 16 0x6001).pc.toNat ≤ 4094 ∧
      decodeWord none (wordAtPc ({ State.reset with pc := 4094 }.withFetchWord 16 0x6001)) = .ok (.ldImm 0 1)) :=
  ⟨⟨rfl, by decide, rfl, rfl, .inl ⟨rfl, rfl⟩, .inr ⟨[], rfl, rfl⟩⟩, ⟨rfl, by decide, rfl⟩⟩

/-- The engine's turn in a batch; a batch step that ends plainly, one that faults, one that gives a signal, and a batch with none left. -/
theorem witness_BatchStepStopsAtFaultOrSignal :
    EngineTurn { start 0x6005 [] with batch := .steps 1 } { start 0x6005 [] with batch := .steps 1 } ∧
    EngineTurn { start 0x6005 [] with batch := .steps 1, inputs := [.advance] } { start 0x6005 [] with batch := .steps 1 } ∧
    (∃ t, executeNext { { start 0x6005 [] with batch := .steps 1 } with batch := .steps 0 } = .next t ∧ t.halt = none ∧ t.signal = none) ∧
    (∃ t, executeNext { { start 0x00EE [] with batch := .steps 1 } with batch := .steps 0 } = .next t ∧ t.halt ≠ none) ∧
    (∃ t, executeNext { { start 0x00FD [] with batch := .steps 1 } with batch := .steps 0 } = .next t ∧ t.signal ≠ none) ∧
    EngineTurn { State.reset with batch := .steps 0 } { State.reset with batch := .steps 0 } :=
  ⟨.inl ⟨rfl, rfl⟩, .inr ⟨[], rfl, rfl⟩, ⟨_, rfl, rfl, rfl⟩, ⟨_, rfl, by decide⟩, ⟨_, rfl, by decide⟩, .inl ⟨rfl, rfl⟩⟩

/-- The first address that cannot be fetched from, and an invalid word at the last that can. -/
theorem witness_FetchAndDecodeFaults :
    (EngineTurn { State.reset with pc := 4095 } { State.reset with pc := 4095 } ∧ 4095 ≤ ({ State.reset with pc := 4095 } : State).pc.toNat) ∧
    (EngineTurn { State.reset with pc := 4094, inputs := [.advance] } { State.reset with pc := 4094 } ∧
      ({ State.reset with pc := 4094 } : State).pc.toNat ≤ 4094 ∧ State.reset.halt = none ∧ State.reset.batch = .idle ∧
      decodeWord none (wordAtPc { State.reset with pc := 4094 }) = .error (.invalid 0)) :=
  ⟨⟨.inl ⟨rfl, rfl⟩, by decide⟩, ⟨.inr ⟨[], rfl, rfl⟩, by decide, rfl, rfl, rfl⟩⟩

theorem witness_HaltedEngineOnlyResetClears :
    ∃ s : State, s.halt = some .stackUnderflow ∧ s.inputs = [] ∧ s.batch = .idle ∧
      ({ s with inputs := [.tick] } : State).inputs = [.tick] ∧
      ({ s with inputs := [.toggleKey 15 true] } : State).inputs = [.toggleKey 15 true] ∧ 15 < 16 ∧
      ({ s with inputs := [.reset] } : State).inputs = [.reset] ∧
      ({ s with inputs := [.cycle 5] } : State).inputs = [.cycle 5] ∧
      ({ s with inputs := [.cycle60Hz] } : State).inputs = [.cycle60Hz] ∧
      ∃ t, step { s with inputs := [.setClock 60] } = .next t :=
  ⟨{ State.reset with halt := some .stackUnderflow }, rfl, rfl, rfl, rfl, rfl, by decide, rfl, rfl, rfl, _, rfl⟩

theorem witness_ExecRecordsExactlyOwnFault : State.reset.halt = none ∧ ownFault .ret State.reset = some .stackUnderflow ∧
    ownFault .cls State.reset = none := by decide

theorem witness_FaultsArePrecise :
    (start 0x00EE []).halt = none ∧ ∃ t, executeNext (start 0x00EE []) = .next t ∧ t.halt = some .stackUnderflow :=
  ⟨rfl, _, rfl, rfl⟩

theorem witness_RegisterFrame :
    (∃ t, exec (.ldVxMem 14) State.reset = .next t) ∧ writesReg (.ldVxMem 14) 15 = false ∧ writesReg (.ldVxMem 14) 14 = true :=
  ⟨⟨_, rfl⟩, by decide, by decide⟩

theorem witness_CellFrame :
    (∃ t, exec (.ldI 5) State.reset = .next t) ∧ ¬ writesSp (.ldI 5) ∧ ¬ writesPix (.ldI 5) ∧ ¬ writesI .cls ∧
    (∃ t, exec (.rnd 1 2) State.reset = .next t) :=
  ⟨⟨_, rfl⟩, by simp [writesSp], by simp [writesPix], by simp [writesI], ⟨_, rfl⟩⟩

/-- A store of three bytes, the addresses next to it, and an instruction that stores nothing. -/
theorem witness_MemoryFrame :
    (∃ t, exec (.ldB 0) { State.reset with i := 0x300 } = .next t) ∧
    storesAt (.ldB 0) { State.reset with i := 0x300 } = some (0x300, 3) ∧ ¬ (0x300 ≤ 0x2FF ∧ 0x2FF < 0x300 + 3) ∧
    ¬ (0x300 ≤ 0x303 ∧ 0x303 < 0x300 + 3) ∧ storesAt .cls State.reset = none :=
  ⟨⟨_, rfl⟩, by decide, by decide, by decide, by decide⟩

theorem witness_PcAfterEveryInstruction :
    (∃ t, exec .ret State.reset = .next t) ∧ ownFault .ret State.reset ≠ none ∧ ownFault (.jp 5) State.reset = none :=
  ⟨⟨_, rfl⟩, by decide, by decide⟩

theorem witness_StepKeepsInvariant : Inv (start 0x6005 []) ∧ ∃ t, step (start 0x6005 []) = .next t :=
  ⟨⟨rfl, Display.blank_wf _, by unfold ClocksAgree; decide, .inl rfl, by unfold PcBounded; decide, rfl,
    ⟨by decide, by decide, fun _ _ h => (nomatch h), .inl rfl⟩⟩, _, rfl⟩

/-- Legal parameters, a font of 240 bytes, the longest ROM that fits and the shortest that does not. -/
theorem witness_ColdResetValues : withFreeze.legal = true ∧ (List.replicate 240 (0x55 : Byte)).length = 240 ∧
    (List.replicate 3584 (0 : Byte)).length ≤ 3584 ∧
    3584 < (List.replicate 3585 (0 : Byte)).length ∧ 0 < [(0x60 : Byte)].length ∧ (240 ≤ 511 ∧ 511 < 512) ∧ 512 + 1 ≤ 513 := by
  refine ⟨by decide, List.length_replicate, ?_, ?_, by decide, by decide, by decide⟩
  · rw [List.length_replicate]
  · rw [List.length_replicate]; decide

theorem witness_ResolutionSwitchClearsOnce :
    (State.reset.display.hires = false) ∧ State.reset.display.hires ≠ true := by decide

/-- Both modes, the corners of the grid, and the least and greatest distance. -/
theorem witness_ScdMovesRowsDown :
    (State.reset.display.wf = true ∧ 31 < State.reset.display.height ∧ 63 < State.reset.display.width) ∧
    ((Display.blank true).wf = true ∧ 63 < (Display.blank true).height ∧ 127 < (Display.blank true).width) ∧
    (Display.blank true).downStep 15 = 15 ∧ (Display.blank false).downStep 15 = 7 :=
  ⟨⟨Display.blank_wf _, by decide, by decide⟩, ⟨Display.blank_wf _, by decide, by decide⟩, by decide, by decide⟩

theorem witness_ScrMovesColumnsRight :
    (Display.blank false).wf = true ∧ (Display.blank true).wf = true ∧ 0 < (Display.blank false).height ∧ 63 < (Display.blank false).width ∧
    127 < (Display.blank true).width := ⟨Display.blank_wf _, Display.blank_wf _, by decide, by decide, by decide⟩

theorem witness_SclMovesColumnsLeft :
    (Display.blank false).wf = true ∧ (Display.blank true).wf = true ∧ 31 < (Display.blank false).height ∧ 0 < (Display.blank false).width ∧
    127 < (Display.blank true).width := ⟨Display.blank_wf _, Display.blank_wf _, by decide, by decide, by decide⟩

theorem witness_ScrollLeftThenRight :
    (Display.blank true).wf = true ∧ 63 < (Display.blank true).height ∧ 3 < (Display.blank true).width ∧ 4 < (Display.blank true).width :=
  ⟨Display.blank_wf _, by decide, by decide, by decide⟩

/-- A grid, the longest sprite, and a place where its bit falls after wrapping on both axes. -/
theorem witness_DrawXorsSpriteBits :
    (Display.blank false).wf = true ∧ (List.replicate 16 (0xFF : Byte)).length ≤ 16 ∧ SpriteBit 64 32 62 31 [0xC3, 0x80] 0 62 ∧
    SpriteBit 64 32 62 31 [0xC3, 0x80] 31 4 :=
  ⟨Display.blank_wf _, by decide, ⟨1, by decide, 0, by decide, by decide, by decide, by decide⟩,
    ⟨0, by decide, 6, by decide, by decide, by decide, by decide⟩⟩

/-- Thirty-two bytes, and a right bit that is drawn in hi-res. -/
theorem witness_BigDrawXorsSpriteBits :
    (Display.blank true).wf = true ∧ ([0xFF, 0x01] ++ List.replicate 30 (0 : Byte)).length = 32 ∧
    BigSpriteBit true 124 0 ([0xFF, 0x01] ++ List.replicate 30 (0 : Byte)) 0 11 :=
  ⟨Display.blank_wf _, by decide, ⟨0, by decide, 7, by decide, by decide, .inr ⟨rfl, by decide, by decide⟩⟩⟩

theorem witness_DrawTwiceRestores : (Display.blank true).wf = true ∧ ([0xF0] : List Byte).length ≤ 16 ∧
    (Display.blank true).pix 0 3 = false ∧ SpriteBit 128 64 0 0 [0xF0] 0 3 :=
  ⟨Display.blank_wf _, by decide, Display.pix_blank _ _ _, ⟨0, by decide, 3, by decide, by decide, by decide, by decide⟩⟩

/-- The last address each form may read from and the first it may not. -/
theorem witness_DrawInstructions :
    (15 : Nibble) ≠ 0 ∧ (0xFF1 : Word).toNat + (15 : Nibble).toNat - 1 ≤ 4095 ∧ 4095 < (0xFF2 : Word).toNat + (15 : Nibble).toNat - 1 ∧
    (0xFE0 : Word).toNat + 31 ≤ 4095 ∧ 4095 < (0xFE1 : Word).toNat + 31 ∧ (14 : Nibble) ≠ 15 := by decide

theorem witness_CallPushesOwnAddress :
    ({ State.reset with sp := 15 } : State).sp.val < 16 ∧ ({ State.reset with sp := 16 } : State).sp.val = 16 := by decide

theorem witness_RetPopsAddressPlus2 :
    ({ State.reset with sp := 16 } : State).sp.val = (15 : Fin 16).val + 1 ∧ ({ State.reset with sp := 1 } : State).sp.val = (0 : Fin 16).val + 1 ∧
    State.reset.sp = 0 := by decide

theorem witness_CallThenRetResumes : ({ State.reset with sp := 15 } : State).sp.val < 16 ∧ (14 : Fin 16).val ≠ 15 := by decide

/-- EXIT at 0x200, and FREEZE with its word set. -/
theorem witness_HostSignalsRepeat :
    State.reset.halt = none ∧
    (ReadyToStep (start 0x00FD []) ∧ (start 0x00FD []).pc.toNat ≤ 4094 ∧
      decodeWord (start 0x00FD []).params.freezeWord (wordAtPc (start 0x00FD [])) = .ok (signalInstr .exit)) ∧
    (ReadyToStep { start 0x00FA [] with params := withFreeze } ∧ (start 0x00FA []).pc.toNat ≤ 4094 ∧
      decodeWord withFreeze.freezeWord (wordAtPc (start 0x00FA [])) = .ok (signalInstr .freeze)) :=
  ⟨rfl, ⟨start_ready _, by decide, rfl⟩, ⟨⟨rfl, rfl, rfl⟩, by decide, rfl⟩⟩

/-- The frame clauses of the one-destination instructions (LdImmSetsRegister, AddImmWraps, MovesAndLogic, TimerMoves, RndMasksOneDrawnByte,
KeyWaitThreeArms): a register that is not the destination. -/
theorem witness_other_register : (15 : Nibble) ≠ 14 ∧ (0 : Nibble) ≠ 1 := by decide

/-- The cases of R171 (AddRegWrapsAndCarries, SubtractFlagIsStrict, ShrHalvesAndKeepsLowBit, ShlDoublesAndFlags128): a destination that is
VF, one that is not, and both orders of the writes. -/
theorem witness_result_and_flag : (14 : Nibble) ≠ 15 ∧ (15 : Nibble) = 15 ∧ ((0 : Nibble) ≠ 14 ∧ (0 : Nibble) ≠ 15) ∧
    Params.default.vfWriteLast = true ∧ flagFirst.vfWriteLast = false := by decide

theorem witness_LdBStoresDecimalDigits :
    State.reset.mem.wf = true ∧ (0xFFD : Word).toNat + 2 ≤ 4095 ∧ 4095 < (0xFFE : Word).toNat + 2 ∧ (0xFFC < 0xFFD ∨ 0xFFD + 2 < 0xFFC) := by
  decide

theorem witness_LdMemStoresRegisters :
    State.reset.mem.wf = true ∧ (0xFF0 : Word).toNat + (15 : Nibble).toNat ≤ 4095 ∧ 4095 < (0xFF1 : Word).toNat + (15 : Nibble).toNat ∧
    (0 : Nibble).toNat ≤ (0 : Nibble).toNat ∧ (15 : Nibble).toNat ≤ (15 : Nibble).toNat := by decide

theorem witness_LdVxMemLoadsRegisters :
    (0xFFF : Word).toNat + (0 : Nibble).toNat ≤ 4095 ∧ (0xFF0 : Word).toNat + (15 : Nibble).toNat ≤ 4095 ∧
    4095 < (0xFF1 : Word).toNat + (15 : Nibble).toNat := by decide

theorem witness_StoreThenLoadRegisters :
    ∃ t, State.reset.mem.wf = true ∧ State.reset.i.toNat + (15 : Nibble).toNat ≤ 4095 ∧ exec (.ldMemVx 15) State.reset = .next t ∧
      ({ warmReset State.reset with mem := t.mem } : State).mem = t.mem ∧ (warmReset State.reset).i = State.reset.i :=
  ⟨_, rfl, by decide, rfl, rfl, rfl⟩

theorem witness_LdRSavesFlagBank :
    (7 : Nibble).toNat ≤ 7 ∧ 7 < (8 : Nibble).toNat ∧ (7 : Fin 8).val ≤ (7 : Nibble).toNat ∧ ¬ (1 : Fin 8).val ≤ (0 : Nibble).toNat := by decide

theorem witness_LdVxRRestoresFlagBank :
    (7 : Nibble).toNat ≤ 7 ∧ 7 < (8 : Nibble).toNat ∧ (7 : Fin 8).val ≤ (7 : Nibble).toNat ∧ (7 : Nibble).toNat < (8 : Nibble).toNat := by decide

theorem witness_KeySkips :
    ((start 0 [(3, 15)]).reg 3).toNat < 16 ∧ 15 < ((start 0 [(3, 16)]).reg 3).toNat ∧ keyFDown[15] = true ∧ keyFDown[14] = false := by decide

theorem witness_KeyWaitThreeArms :
    State.reset.wait = .noWait ∧ ({ State.reset with wait := .waiting } : State).wait = .waiting ∧
    ({ State.reset with wait := .keyPressed 15 } : State).wait = .keyPressed 15 := by decide

/-- A wait at 0x200 with one spinning step between, and the top key. -/
theorem witness_KeyWaitCompletesAfterPress :
    ∃ s : State, s.halt = none ∧ s.batch = .idle ∧ s.pc.toNat ≤ 4094 ∧ s.wait = .noWait ∧ 15 < 16 ∧
      decodeWord s.params.freezeWord (wordAtPc s) = .ok (.ldVxK 3) ∧
      s.inputs = List.replicate (1 + 1) .advance ++ [.toggleKey 15 true, .advance] ∧ 1 ≤ 1 :=
  ⟨{ start 0xF30A [] with inputs := List.replicate (1 + 1) .advance ++ [.toggleKey 15 true, .advance] },
    rfl, rfl, by decide, rfl, by decide, rfl, rfl, by decide⟩

theorem witness_RndMasksOneDrawnByte :
    ({ State.reset with rndSource := .constant 0xA7 } : State).rndSource = .constant 0xA7 ∧
    ({ State.reset with rndSource := .script [0xA7] } : State).rndSource = .script (0xA7 :: []) ∧
    State.reset.rndSource = .free ∧ ({ State.reset with rndSource := .script [] } : State).rndSource = .script [] ∧
    (0 : Byte) = 0 := by decide

theorem witness_TickCountsDownToZero : ({ State.reset with inputs := [.tick] } : State).inputs = .tick :: [] := by decide

/-- A press while waiting, a release, a press with no wait, the top key and the first value that is no key. -/
theorem witness_ToggleKeySetsAndWakes :
    ({ State.reset with inputs := [.toggleKey 15 true] } : State).inputs = .toggleKey 15 true :: [] ∧ 15 < 16 ∧
    ({ State.reset with inputs := [.toggleKey 16 true] } : State).inputs = .toggleKey 16 true :: [] ∧
    ({ State.reset with wait := .waiting } : State).wait = .waiting ∧ State.reset.wait ≠ .waiting := by decide

/-- Just before the first period has passed, and just after. -/
theorem witness_DueRebasesToNow :
    0 < State.reset.cpu.period ∧ State.reset.cpu.last ≤ 1999999 ∧ 1999999 < State.reset.cpu.last + State.reset.cpu.period ∧
    State.reset.cpu.last + State.reset.cpu.period ≤ 2000000 := by decide

theorem witness_SetClockSetsAllThree :
    ({ State.reset with inputs := [.setClock 1] } : State).inputs = .setClock 1 :: [] ∧ 1 ≤ 1 ∧
    ({ State.reset with inputs := [.incrementClock (-499)] } : State).inputs = .incrementClock (-499) :: [] ∧
    ((1 : Nat) : Int) = State.reset.clockHz + (-499) ∧ (State.reset.clockHz : Int) + (-500) < 1 := by decide

/-- A call that is served, one within a call, and times before a clock's LAST and before an earlier call's (while after both LAST). -/
theorem witness_CycleTicksThenSteps :
    State.reset.halt = none ∧ ({ State.reset with inputs := [.cycle 16666667] } : State).inputs = [.cycle 16666667] ∧
    State.reset.batch = .idle ∧ State.reset.driving ≠ some .externallyTimed ∧ 0 < State.reset.tmr.period ∧ 0 < State.reset.cpu.period ∧
    State.reset.hostNow ≤ 16666667 ∧ State.reset.tmr.last ≤ 16666667 ∧ State.reset.cpu.last ≤ 16666667 ∧
    ({ State.reset with batch := .steps 0 } : State).batch ≠ .idle ∧
    500000 < ({ State.reset with hostNow := 1000000 } : State).hostNow ∧
    1 < ({ State.reset with tmr := { period := 16666666, last := 2 } } : State).tmr.last := by decide

theorem witness_Cycle60HzTicksOnce :
    State.reset.halt = none ∧ State.reset.batch = .idle ∧
    ({ State.reset with inputs := [.cycle60Hz] } : State).inputs = .cycle60Hz :: [] ∧
    State.reset.driving ≠ some .selfTimed ∧ ({ State.reset with driving := some .selfTimed } : State).driving = some .selfTimed ∧
    ({ State.reset with inputs := [.cycle 5], driving := some .externallyTimed } : State).inputs = .cycle 5 :: [] ∧
    ({ State.reset with batch := .steps 1 } : State).batch ≠ .idle := by decide

/-- The duties of R268: a time that decreases while it is after both LAST (0), and a call after a fault. -/
theorem test_host_duties :
    step { State.reset with hostNow := 1000000, inputs := [.cycle 500000] } = .refused .clockBackwards ∧
    step { State.reset with halt := some .stackOverflow, inputs := [.cycle 5] } = .refused (.calledAfterFault .stackOverflow) ∧
    step { State.reset with halt := some .stackOverflow, inputs := [.cycle60Hz] } = .refused (.calledAfterFault .stackOverflow) :=
  ⟨rfl, rfl, rfl⟩

theorem witness_WarmResetKeepsMemoryAndKeys : ({ State.reset with inputs := [.reset] } : State).inputs = .reset :: [] := by decide

theorem witness_SoundAndKeysAreNotRead : (∀ x, Instr.cls ≠ .ldSt x) ∧ (∀ x, Instr.cls ≠ .skp x) ∧ ∀ x, Instr.cls ≠ .sknp x := by
  simp

/-! ## The host's two questions, on some words: the decoder and the first step after reset -/

/-- A placed word is the first instruction to run: LD V5, 0xAB; EXIT; and a DRW that stands at 0x200. -/
theorem test_withFetchWord_runs :
    seen (fun t => (t.reg 5, t.pc)) (step (State.reset.withFetchWord 16 0x65AB)) = some (0xAB, 0x202) ∧
    seen lastOutcome (step (State.reset.withFetchWord 16 0x00FD)) = some (.signal .exit) := by decide

end Sys2Proof.Tests
end

section
/-! PROOFS. What an instruction does when it completes, said once as a function, and that `exec` is that function or the record of the
instruction's own fault. -/

open Sys2Proof

namespace Sys2Proof.Machine

/-- The state after a push below depth 16 (10_state.md R28). -/
def State.pushed (s : State) (a : Word) : State :=
  { s with stack := s.stack.setIfInBounds s.sp.val a, sp := ⟨min (s.sp.val + 1) 16, by omega⟩ }

/-- The state after a pop above depth 0 (10_state.md R28). -/
def State.popped (s : State) : State := { s with sp := ⟨s.sp.val - 1, by omega⟩ }

/-- The state after an LD Vx, K that finds `WAIT` at `w` (44_keyboard_timers_random.md R224): armed, spinning, or with the key consumed. -/
def State.keyAwaited (s : State) (x : Nibble) (w : Wait) : State :=
  match w with
  | .noWait => { s with wait := .waiting }
  | .waiting => s
  | .keyPressed k => ({ s with wait := .noWait }.setReg x (k.setWidth 8)).next

/-- The state after an instruction that does not fault. Meaningful only where `ownFault` is none: `exec_of_noFault` ties it to `exec`. -/
def effect (i : Instr) (s : State) : State :=
  match i with
  | .scd z => (s.withDisplay (s.display.scrollDown z.toNat)).next
  | .cls => (s.withDisplay s.display.clear).next
  | .ret => s.popped.jump (stackTop s + 2)
  | .scr => (s.withDisplay s.display.scrollRight).next
  | .scl => (s.withDisplay s.display.scrollLeft).next
  | .exit => { s with signal := some .exit }
  | .low => (s.withDisplay (s.display.setHires false)).next
  | .high => (s.withDisplay (s.display.setHires true)).next
  | .freeze => { s with signal := some .freeze }
  | .jp nnn => s.jump (zext16 nnn)
  | .call nnn => (s.pushed s.pc).jump (zext16 nnn)
  | .seImm x kk => s.skipIf (s.reg x == kk)
  | .sneImm x kk => s.skipIf (s.reg x != kk)
  | .seReg x y => s.skipIf (s.reg x == s.reg y)
  | .ldImm x kk => (s.setReg x kk).next
  | .addImm x kk => (s.setReg x (s.reg x + kk)).next
  | .ldReg x y => (s.setReg x (s.reg y)).next
  | .or x y => (s.setReg x (s.reg x ||| s.reg y)).next
  | .and x y => (s.setReg x (s.reg x &&& s.reg y)).next
  | .xor x y => (s.setReg x (s.reg x ^^^ s.reg y)).next
  | .addReg x y => (s.writeResultFlag x (s.reg x + s.reg y) (addFlag (s.reg x) (s.reg y))).next
  | .sub x y => (s.writeResultFlag x (s.reg x - s.reg y) (subFlag (s.reg x) (s.reg y))).next
  | .shr x y => (s.writeResultFlag x (s.shiftSource x y >>> 1) (shrFlag (s.shiftSource x y))).next
  | .subn x y => (s.writeResultFlag x (s.reg y - s.reg x) (subFlag (s.reg y) (s.reg x))).next
  | .shl x y => (s.writeResultFlag x (s.shiftSource x y <<< 1) (shlFlag (s.shiftSource x y))).next
  | .sneReg x y => s.skipIf (s.reg x != s.reg y)
  | .ldI nnn => (s.setI (zext16 nnn)).next
  | .jpV0 nnn => s.jump (zext16 nnn + zext16 (s.reg 0))
  | .rnd x kk => (s.drawByte.2.setReg x (s.drawByte.1 &&& kk)).next
  | .drw x y z => s.drawn (s.display.draw (s.reg x).toNat (s.reg y).toNat (bytesAtI s z.toNat))
  | .drw16 x y => s.drawn (s.display.schipDraw (s.reg x).toNat (s.reg y).toNat (bytesAtI s 32))
  | .skp x => s.skipIf (keyOf s x)
  | .sknp x => s.skipIf (!keyOf s x)
  | .ldVxDt x => (s.setReg x s.dt).next
  | .ldVxK x => s.keyAwaited x s.wait
  | .ldDt x => { s with dt := s.reg x }.next
  | .ldSt x => { s with st := s.reg x }.next
  | .addI x => (s.setI (s.i + zext16 (s.reg x))).next
  | .ldF x => (s.setI (smallGlyph (s.reg x))).next
  | .ldHf x => (s.setI (largeGlyph (s.reg x))).next
  | .ldB x => s.stored (s.mem.writeBytes s.address (decimalDigits (s.reg x)))
  | .ldMemVx x => s.stored (s.mem.writeBytes s.address (s.firstRegs x))
  | .ldVxMem x => (s.loadRegs (bytesAtI s (x.toNat + 1))).next
  | .ldR x => (s.saveFlags (s.firstRegs x)).next
  | .ldVxR x => (s.loadRegs (s.firstFlags x)).next

/-- The state after an instruction that records its own fault, if it has one, and else has its effect. -/
def outcomeOf (s : State) (fault : Option CoreFault) (done : State) : State :=
  match fault with
  | some f => { s with halt := some f }
  | none => done

/-! An instruction that may fault, by the fault condition of the statements: the record of the fault, or the effect. -/

theorem State.push_eq (s : State) (a : Word) :
    s.push a = if s.sp = 16 then .error .stackOverflow else .ok (s.pushed a) := by
  rcases s.push_cases a with ⟨h, e⟩ | ⟨h, e⟩
  · have hne : s.sp ≠ 16 := fun e => by simp [e] at h
    have hsp : min (s.sp.val + 1) 16 = s.sp.val + 1 := by omega
    have hstack : s.stack.setIfInBounds s.sp.val a = s.stack.set s.sp.val a h := by
      ext k hk; simp [Vector.getElem_setIfInBounds, Vector.getElem_set]
    simp only [e, if_neg hne, State.pushed, hsp, hstack]
  · rw [e, if_pos (Fin.ext h)]

theorem stackTop_eq (s : State) : stackTop s = s.stack[s.sp.val - 1]'(by omega) := by
  unfold stackTop
  rw [List.getD_eq_getElem _ _ (by simp; omega), Vector.getElem_toList]

theorem State.pop_eq (s : State) :
    s.pop = if s.sp = 0 then .error .stackUnderflow else .ok (stackTop s, s.popped) := by
  rcases s.pop_cases with ⟨h, e⟩ | ⟨h, e⟩
  · have hne : s.sp ≠ 0 := fun e => by simp [e] at h
    rw [e, if_neg hne, stackTop_eq]; rfl
  · rw [e, if_pos (Fin.ext h)]

theorem finish_push (s : State) (a : Word) (g : State → State) :
    finish s ((s.push a).map g) = .next (outcomeOf s (if s.sp = 16 then some .stackOverflow else none) (g (s.pushed a))) := by
  rw [s.push_eq]; split <;> rfl

theorem finish_pop (s : State) (g : Word × State → State) :
    finish s (s.pop.map g) =
      .next (outcomeOf s (if s.sp = 0 then some .stackUnderflow else none) (g (stackTop s, s.popped))) := by
  rw [s.pop_eq]; split <;> rfl

theorem finish_memRead_at_i (s : State) (n : Nat) (g : List Byte → State) :
    finish s ((memRead s.mem s.address n).map g) = .next (outcomeOf s (rangeFault s n) (g (bytesAtI s n))) := by
  rw [finish_memRead]; unfold rangeFault State.address; split <;> rfl

theorem finish_memWrite_at_i (s : State) (bytes : List Byte) (g : Memory → State) :
    finish s ((memWrite s.mem s.address bytes).map g) =
      .next (outcomeOf s (rangeFault s bytes.length) (g (s.mem.writeBytes s.address bytes))) := by
  rw [finish_memWrite]; unfold rangeFault State.address; split <;> rfl

theorem finish_flagIndex (s : State) (x : Nibble) (g : State) :
    finish s ((checkFlagIndex x).map fun _ => g) = .next (outcomeOf s (flagFault x) g) := by
  rw [finish_checkFlagIndex]; unfold flagFault; split <;> rfl

theorem finish_key (s : State) (x : Nibble) (g : Bool → State) :
    finish s ((s.keyDown (s.reg x)).map g) = .next (outcomeOf s (keyFault s x) (g (keyOf s x))) := by
  rw [finish_keyDown]; unfold keyFault keyOf; split <;> rfl

theorem execLdVxK_eq (x : Nibble) (s : State) : execLdVxK x s = .next (s.keyAwaited x s.wait) := by
  unfold execLdVxK State.keyAwaited; cases s.wait <;> rfl

/-- Every instruction records its own fault and changes nothing else, or has its effect (60_exceptions.md R241, R245). -/
theorem exec_eq (i : Instr) (s : State) : exec i s = .next (outcomeOf s (ownFault i s) (effect i s)) := by
  cases i
  case ret => exact finish_pop s _
  case call nnn => exact finish_push s s.pc _
  case drw | drw16 | ldVxMem => exact finish_memRead_at_i ..
  case ldB => exact finish_memWrite_at_i ..
  case ldMemVx x =>
    have h := finish_memWrite_at_i s (s.firstRegs x) s.stored
    rwa [State.firstRegs_length] at h
  case ldR | ldVxR => exact finish_flagIndex ..
  case skp | sknp => exact finish_key ..
  case ldVxK => exact execLdVxK_eq ..
  all_goals rfl

/-- An instruction whose own fault condition does not hold has its effect. -/
theorem exec_of_noFault {i : Instr} {s : State} (h : ownFault i s = none) : exec i s = .next (effect i s) := by
  rw [exec_eq, h]; rfl

/-- An instruction whose own fault condition holds records it and changes nothing else. -/
theorem exec_of_fault {i : Instr} {s : State} {f : CoreFault} (h : ownFault i s = some f) :
    exec i s = .next { s with halt := some f } := by
  rw [exec_eq, h]; rfl

/-- The next state of an instruction is its effect, when its own fault condition does not hold, or the record of its fault. -/
theorem exec_next_eq {i : Instr} {s t : State} (h : exec i s = .next t) :
    (ownFault i s = none ∧ t = effect i s) ∨ ∃ f, ownFault i s = some f ∧ t = { s with halt := some f } := by
  cases hf : ownFault i s with
  | none => rw [exec_of_noFault hf] at h; cases h; exact .inl ⟨rfl, rfl⟩
  | some f => rw [exec_of_fault hf] at h; cases h; exact .inr ⟨f, rfl, rfl⟩

end Sys2Proof.Machine
end

section
/-! PROOFS. Who changes what (10_state.md R31): the cells each effect leaves alone. -/

open Sys2Proof

namespace Sys2Proof.Machine

section
variable (s : State)

/-! A drawn byte changes only rndSource, draws. -/

@[simp] theorem State.drawByte_v : s.drawByte.2.v = s.v := by rw [s.drawByte_frame]
@[simp] theorem State.drawByte_i : s.drawByte.2.i = s.i := by rw [s.drawByte_frame]
@[simp] theorem State.drawByte_pc : s.drawByte.2.pc = s.pc := by rw [s.drawByte_frame]
@[simp] theorem State.drawByte_sp : s.drawByte.2.sp = s.sp := by rw [s.drawByte_frame]
@[simp] theorem State.drawByte_stack : s.drawByte.2.stack = s.stack := by rw [s.drawByte_frame]
@[simp] theorem State.drawByte_fb : s.drawByte.2.fb = s.fb := by rw [s.drawByte_frame]
@[simp] theorem State.drawByte_dt : s.drawByte.2.dt = s.dt := by rw [s.drawByte_frame]
@[simp] theorem State.drawByte_st : s.drawByte.2.st = s.st := by rw [s.drawByte_frame]
@[simp] theorem State.drawByte_mem : s.drawByte.2.mem = s.mem := by rw [s.drawByte_frame]
@[simp] theorem State.drawByte_wait : s.drawByte.2.wait = s.wait := by rw [s.drawByte_frame]
@[simp] theorem State.drawByte_display : s.drawByte.2.display = s.display := by rw [s.drawByte_frame]
@[simp] theorem State.drawByte_signal : s.drawByte.2.signal = s.signal := by rw [s.drawByte_frame]

/-! LD Vx, K changes only v, pc, wait. -/

/-- `keyAwaited` as a record update. -/
theorem State.keyAwaited_frame (x : Nibble) (w : Wait) :
    s.keyAwaited x w = { s with v := (s.keyAwaited x w).v, pc := (s.keyAwaited x w).pc, wait := (s.keyAwaited x w).wait } := by
  cases w <;> rfl

@[simp] theorem State.keyAwaited_i (x : Nibble) (w : Wait) : (s.keyAwaited x w).i = s.i := by rw [s.keyAwaited_frame]
@[simp] theorem State.keyAwaited_sp (x : Nibble) (w : Wait) : (s.keyAwaited x w).sp = s.sp := by rw [s.keyAwaited_frame]
@[simp] theorem State.keyAwaited_stack (x : Nibble) (w : Wait) : (s.keyAwaited x w).stack = s.stack := by rw [s.keyAwaited_frame]
@[simp] theorem State.keyAwaited_fb (x : Nibble) (w : Wait) : (s.keyAwaited x w).fb = s.fb := by rw [s.keyAwaited_frame]
@[simp] theorem State.keyAwaited_dt (x : Nibble) (w : Wait) : (s.keyAwaited x w).dt = s.dt := by rw [s.keyAwaited_frame]
@[simp] theorem State.keyAwaited_st (x : Nibble) (w : Wait) : (s.keyAwaited x w).st = s.st := by rw [s.keyAwaited_frame]
@[simp] theorem State.keyAwaited_mem (x : Nibble) (w : Wait) : (s.keyAwaited x w).mem = s.mem := by rw [s.keyAwaited_frame]
@[simp] theorem State.keyAwaited_display (x : Nibble) (w : Wait) : (s.keyAwaited x w).display = s.display := by rw [s.keyAwaited_frame]
@[simp] theorem State.keyAwaited_signal (x : Nibble) (w : Wait) : (s.keyAwaited x w).signal = s.signal := by rw [s.keyAwaited_frame]
@[simp] theorem State.keyAwaited_rndSource (x : Nibble) (w : Wait) : (s.keyAwaited x w).rndSource = s.rndSource := by rw [s.keyAwaited_frame]
@[simp] theorem State.keyAwaited_draws (x : Nibble) (w : Wait) : (s.keyAwaited x w).draws = s.draws := by rw [s.keyAwaited_frame]

variable {s} {i : Instr}

/-! Each cell of 10_state.md R31 that some instruction writes: unchanged by every other instruction. -/

/-- The cells no instruction writes: the fault record (which only a fault sets), the keys, the clock cells, the parameters, the host's
fields. -/
theorem effect_frame (i : Instr) (s : State) :
    effect i s = { effect i s with
      keys := s.keys, halt := s.halt, clockHz := s.clockHz, ratio := s.ratio, cpu := s.cpu, tmr := s.tmr, params := s.params,
      inputs := s.inputs, batch := s.batch, driving := s.driving, hostNow := s.hostNow } := by
  cases i
  case seImm | sneImm | seReg | sneReg | skp | sknp => simp only [effect]; rw [State.skipIf_frame]
  case addReg | sub | shr | subn | shl => simp only [effect]; rw [State.writeResultFlag_frame]; rfl
  case ldVxMem | ldVxR => simp only [effect]; rw [State.loadRegs_frame]; rfl
  case rnd => simp only [effect]; rw [State.drawByte_frame]; rfl
  case ldVxK => simp only [effect]; rw [State.keyAwaited_frame]
  all_goals rfl

theorem effect_i (h : ¬ writesI i) : (effect i s).i = s.i := by
  cases i
  case ldI | addI | ldF | ldHf => simp [writesI] at h
  case call | ret => rfl
  all_goals simp [effect]

theorem effect_sp (h : ¬ writesSp i) : (effect i s).sp = s.sp := by
  cases i
  case call | ret => simp [writesSp] at h
  all_goals simp [effect]

theorem effect_stack (h : ∀ n, i ≠ .call n) : (effect i s).stack = s.stack := by
  cases i
  case call n => exact absurd rfl (h n)
  case ret => rfl
  all_goals simp [effect]

theorem effect_fb (h : ∀ x, i ≠ .ldR x) : (effect i s).fb = s.fb := by
  cases i
  case ldR x => exact absurd rfl (h x)
  case call | ret => rfl
  all_goals simp [effect]

theorem effect_dt (h : ∀ x, i ≠ .ldDt x) : (effect i s).dt = s.dt := by
  cases i
  case ldDt x => exact absurd rfl (h x)
  case call | ret => rfl
  all_goals simp [effect]

theorem effect_st (h : ∀ x, i ≠ .ldSt x) : (effect i s).st = s.st := by
  cases i
  case ldSt x => exact absurd rfl (h x)
  case call | ret => rfl
  all_goals simp [effect]

theorem effect_wait (h : ∀ x, i ≠ .ldVxK x) : (effect i s).wait = s.wait := by
  cases i
  case ldVxK x => exact absurd rfl (h x)
  case call | ret => rfl
  all_goals simp [effect]

theorem effect_display (h : ¬ writesPix i) : (effect i s).display = s.display := by
  cases i
  case cls | low | high | scd | scr | scl | drw | drw16 => simp [writesPix] at h
  case call | ret => rfl
  all_goals simp [effect]

/-- Only LOW and HIGH change the mode: the scrolls, CLS and the draws keep it. -/
theorem effect_hires (hlow : i ≠ .low) (hhigh : i ≠ .high) : (effect i s).display.hires = s.display.hires := by
  cases i
  case low => exact absurd rfl hlow
  case high => exact absurd rfl hhigh
  case cls | scd | scr | scl | drw | drw16 => simp [effect]
  all_goals rw [effect_display (by simp [writesPix])]

theorem effect_signal (h : i ≠ .exit ∧ i ≠ .freeze) : (effect i s).signal = s.signal := by
  cases i
  case exit => exact absurd rfl h.1
  case freeze => exact absurd rfl h.2
  case call | ret => rfl
  all_goals simp [effect]

theorem effect_rndSource_draws (h : ∀ x kk, i ≠ .rnd x kk) :
    (effect i s).rndSource = s.rndSource ∧ (effect i s).draws = s.draws := by
  cases i
  case rnd x kk => exact absurd rfl (h x kk)
  case call | ret => exact ⟨rfl, rfl⟩
  all_goals simp [effect]

theorem effect_mem (hb : ∀ x, i ≠ .ldB x) (hm : ∀ x, i ≠ .ldMemVx x) : (effect i s).mem = s.mem := by
  cases i
  case ldB x => exact absurd rfl (hb x)
  case ldMemVx x => exact absurd rfl (hm x)
  case call | ret => rfl
  all_goals simp [effect]

end

/-- Settles O12: a completed instruction leaves alone every cell that R31 does not name it for, and a fault changes only the record. -/
theorem cellFrame : Obligations.CellFrame := by
  intro i s t h
  obtain ⟨-, rfl⟩ | ⟨f, -, rfl⟩ := exec_next_eq h
  · refine ⟨effect_i, effect_sp, effect_stack, effect_fb, effect_dt, effect_st, ?keys, effect_wait, effect_hires, effect_display,
      effect_signal, effect_rndSource_draws, ?clockHz, ?ratio, ?cpu, ?tmr, ?params, ?inputs, ?batch, ?driving, ?hostNow⟩
    all_goals rw [effect_frame]
  · simp

end Sys2Proof.Machine
end

section
/-! PROOFS. The registers an instruction may write (10_state.md R22), `PC` after it (R25), and the cells it does not read (R30, R31, R34). -/

open Sys2Proof

namespace Sys2Proof.Machine

section
variable {s : State} {i : Instr}

theorem State.firstFlags_length_le (s : State) (x : Nibble) : (s.firstFlags x).length ≤ x.toNat + 1 := by
  simp [State.firstFlags]

@[simp] theorem bytesAtI_length (s : State) (n : Nat) : (bytesAtI s n).length = n := by simp [bytesAtI]

/-- A register past the loaded list keeps its value. -/
theorem State.reg_loadRegs_past {bytes : List Byte} {r : Nibble} (h : bytes.length ≤ r.toNat) :
    (s.loadRegs bytes).reg r = s.reg r := by
  rw [State.reg_loadRegs, List.getD_eq_default _ _ h]

/-- A register that is neither the destination nor VF keeps its value, whatever the order of the two writes. -/
theorem State.reg_writeResultFlag_other {x r : Nibble} (hx : r ≠ x) (hf : r ≠ 15) (result flag : Byte) :
    (s.writeResultFlag x result flag).reg r = s.reg r := by
  simp only [State.reg_writeResultFlag, if_neg hx, if_neg hf, ite_self]

theorem State.reg_keyAwaited_other {x r : Nibble} (h : r ≠ x) (w : Wait) : (s.keyAwaited x w).reg r = s.reg r := by
  cases w with
  | noWait => rfl
  | waiting => rfl
  | keyPressed k => exact (State.reg_setReg _ x r _).trans (if_neg h)

@[simp] theorem State.drawByte_reg (s : State) (r : Nibble) : s.drawByte.2.reg r = s.reg r := by simp [State.reg]

/-- The registers R22 does not let the instruction write keep their values. -/
theorem effect_reg {r : Nibble} (h : writesReg i r = false) : (effect i s).reg r = s.reg r := by
  cases i <;> simp only [writesReg, beq_eq_false_iff_ne, Bool.or_eq_false_iff, decide_eq_false_iff_not] at h
  case ldImm | addImm | rnd | ldReg | or | and | xor | ldVxDt => simp [effect, State.reg_setReg, h]
  case addReg | sub | shr | subn | shl => simp [effect, State.reg_writeResultFlag_other h.1 h.2]
  case drw | drw16 => exact (s.reg_drawn _ r).trans (if_neg h)
  case ldVxK => exact State.reg_keyAwaited_other h _
  case ldVxMem x => rw [effect, State.next_reg, State.reg_loadRegs_past (by rw [bytesAtI_length]; omega)]
  case ldVxR x => rw [effect, State.next_reg, State.reg_loadRegs_past ((s.firstFlags_length_le x).trans (by omega))]
  case exit | freeze | call | ret | ldDt | ldSt => rfl
  all_goals simp [effect]

theorem State.keyAwaited_pc (x : Nibble) (w : Wait) :
    (s.keyAwaited x w).pc = if w = .noWait ∨ w = .waiting then s.pc else s.pc + 2 := by
  cases w <;> simp [State.keyAwaited]

/-- `PC` after a completed instruction is what R25 says. -/
theorem effect_pc : (effect i s).pc = pcAfter i s := by
  cases i
  case seImm | sneImm | seReg | sneReg | skp | sknp => exact State.skipIf_pc ..
  case ldVxK => exact State.keyAwaited_pc ..
  case exit | freeze => rfl
  all_goals simp [effect, pcAfter]

end

/-- Settles O11: a register that R22 does not let the instruction write is unchanged by its effect, and by a fault. -/
theorem registerFrame : Obligations.RegisterFrame := by
  intro i s t h r hr
  obtain ⟨-, rfl⟩ | ⟨f, -, rfl⟩ := exec_next_eq h
  · exact effect_reg hr
  · rfl

/-- Settles O14: R25's table for an instruction that completes; a fault keeps `PC`. -/
theorem pcAfterEveryInstruction : Obligations.PcAfterEveryInstruction := by
  intro i s t h
  obtain ⟨hf, rfl⟩ | ⟨f, hf, rfl⟩ := exec_next_eq h
  · exact ⟨fun _ => effect_pc, fun hne => absurd hf hne⟩
  · exact ⟨fun hnone => by simp [hf] at hnone, fun _ => rfl⟩

/-! `ST` and `KEY` are not read (10_state.md R30, R31, R34): an instruction commutes with a change of these two cells. -/

/-- `s` with `ST` changed by `f` and the keys by `g`. -/
def State.mapSoundKeys (f : Byte → Byte) (g : Vector Bool 16 → Vector Bool 16) (s : State) : State :=
  { s with st := f s.st, keys := g s.keys }

section
variable (s : State) (f : Byte → Byte) (g : Vector Bool 16 → Vector Bool 16)

theorem State.skipIf_mapSoundKeys (c : Bool) : (s.mapSoundKeys f g).skipIf c = (s.skipIf c).mapSoundKeys f g := by
  cases c <;> rfl

theorem State.writeResultFlag_mapSoundKeys (x : Nibble) (result flag : Byte) :
    (s.mapSoundKeys f g).writeResultFlag x result flag = (s.writeResultFlag x result flag).mapSoundKeys f g := by
  unfold State.writeResultFlag; rw [apply_ite (State.mapSoundKeys f g)]; rfl

theorem State.drawn_mapSoundKeys (blit : Display × Bool) :
    (s.mapSoundKeys f g).drawn blit = (s.drawn blit).mapSoundKeys f g := rfl

theorem State.next_mapSoundKeys : (s.mapSoundKeys f g).next = s.next.mapSoundKeys f g := rfl

theorem State.loadRegs_mapSoundKeys (bytes : List Byte) :
    (s.mapSoundKeys f g).loadRegs bytes = (s.loadRegs bytes).mapSoundKeys f g := by
  simp only [State.loadRegs, State.mapSoundKeys]

theorem State.keyAwaited_mapSoundKeys (x : Nibble) (w : Wait) :
    (s.mapSoundKeys f g).keyAwaited x w = (s.keyAwaited x w).mapSoundKeys f g := by
  cases w <;> rfl

theorem State.drawByte_mapSoundKeys : (s.mapSoundKeys f g).drawByte = (s.drawByte.1, s.drawByte.2.mapSoundKeys f g) := by
  simp only [State.drawByte, State.mapSoundKeys]; split <;> rfl

variable {s f g} {i : Instr}

theorem ownFault_mapSoundKeys : ownFault i (s.mapSoundKeys f g) = ownFault i s := by cases i <;> rfl

/-- The effect of an instruction commutes with a change of `ST`, unless it is LD ST, and with a change of the keys, unless it is a key
skip. -/
theorem effect_mapSoundKeys (hst : f = id ∨ ∀ x, i ≠ .ldSt x) (hkeys : g = id ∨ ∀ x, i ≠ .skp x ∧ i ≠ .sknp x) :
    effect i (s.mapSoundKeys f g) = (effect i s).mapSoundKeys f g := by
  cases i
  case ldSt x =>
    obtain rfl | h := hst
    · rfl
    · exact absurd rfl (h x)
  case skp x =>
    obtain rfl | h := hkeys
    · exact s.skipIf_mapSoundKeys f id (keyOf s x)
    · exact absurd rfl (h x).1
  case sknp x =>
    obtain rfl | h := hkeys
    · exact s.skipIf_mapSoundKeys f id (!keyOf s x)
    · exact absurd rfl (h x).2
  case seImm | sneImm | seReg | sneReg => exact s.skipIf_mapSoundKeys f g _
  case addReg | sub | shr | subn | shl =>
    exact (congrArg State.next (s.writeResultFlag_mapSoundKeys f g _ _ _)).trans (State.next_mapSoundKeys ..)
  case drw | drw16 => exact s.drawn_mapSoundKeys f g _
  case ldVxMem | ldVxR => exact (congrArg State.next (s.loadRegs_mapSoundKeys f g _)).trans (State.next_mapSoundKeys ..)
  case ldVxK => exact s.keyAwaited_mapSoundKeys f g _ _
  case rnd => simp only [effect, State.drawByte_mapSoundKeys]; rfl
  all_goals rfl

theorem exec_mapSoundKeys (hst : f = id ∨ ∀ x, i ≠ .ldSt x) (hkeys : g = id ∨ ∀ x, i ≠ .skp x ∧ i ≠ .sknp x) :
    exec i (s.mapSoundKeys f g) = mapNext (State.mapSoundKeys f g) (exec i s) := by
  rw [exec_eq, exec_eq, ownFault_mapSoundKeys, effect_mapSoundKeys hst hkeys]
  cases ownFault i s <;> rfl

end

/-- Settles O60: no instruction but LD ST touches `ST`, which it writes without reading, and only the key skips look at `KEY`. -/
theorem soundAndKeysAreNotRead : Obligations.SoundAndKeysAreNotRead := by
  intro i s st keys
  refine ⟨fun hst => ?_, fun hskp hsknp => ?_⟩
  · exact exec_mapSoundKeys (f := fun _ => st) (g := id) (.inr hst) (.inl rfl)
  · exact exec_mapSoundKeys (f := id) (g := fun _ => keys) (.inl rfl) (.inr fun x => ⟨hskp x, hsknp x⟩)

end Sys2Proof.Machine
end

section
/-! PROOFS. The invariant: that it holds at reset, that every effect, fault, move of a host call and host event keeps it, hence every step. -/

open Sys2Proof

namespace Sys2Proof.Machine

/-- Settles O15: each part of the invariant is a fact about the cold reset's values. -/
theorem resetMeetsInvariant : Obligations.ResetMeetsInvariant where
  memWf := State.reset_mem_wf
  displayWf := Display.blank_wf false
  clocks := by unfold ClocksAgree; decide
  outcome := .inl rfl
  pcBound := by unfold PcBounded; decide
  params := rfl
  calls := ⟨le_rfl, le_rfl, nofun, .inl rfl⟩

section
variable {s t : State} {i : Instr}

/-! Each part of the invariant after the effect of an instruction. -/

theorem effect_display_wf (h : s.display.wf = true) : (effect i s).display.wf = true := by
  cases i
  case scd z => exact Display.scrollDown_wf h z.isLt
  case cls => exact Display.clear_wf _
  case scr => exact Display.scrollRight_wf h
  case scl => exact Display.scrollLeft_wf h
  case low | high => exact Display.setHires_wf h _
  case drw => simpa [effect] using Display.draw_wf h _ _ _
  case drw16 => simpa [effect] using Display.schipDraw_wf h _ _ _
  all_goals rwa [effect_display (by simp [writesPix])]

/-- An access at `I` without a fault is inside memory. -/
theorem address_le_of_rangeFault_none {n : Nat} (h : rangeFault s n = none) : s.address + n ≤ 4096 := by
  unfold rangeFault at h
  split at h
  · cases h
  · unfold State.address; omega

theorem effect_mem_wf (h : s.mem.wf = true) (hf : ownFault i s = none) : (effect i s).mem.wf = true := by
  cases i
  case ldB x => exact Memory.writeBytes_wf h _ (address_le_of_rangeFault_none hf)
  case ldMemVx x =>
    refine Memory.writeBytes_wf h _ ?_
    rw [State.firstRegs_length]
    exact address_le_of_rangeFault_none hf
  all_goals rwa [effect_mem (by simp) (by simp)]

theorem stackTop_le (h : PcBounded s) : (stackTop s).toNat ≤ 4094 := by
  rw [stackTop_eq]
  exact h.2 ⟨s.sp.val - 1, by omega⟩

/-- From a `PC` that could be fetched at, no instruction goes past 4350, the largest target of JP V0 (10_state.md R25). -/
theorem pcAfter_le (hpc : s.pc.toNat ≤ 4094) (h : PcBounded s) : (pcAfter i s).toNat ≤ 4350 := by
  have hnext : (s.pc + 2).toNat ≤ 4350 := by bv_omega
  have hskip (c : Bool) : (skipPc s.pc c).toNat ≤ 4350 := by
    cases c
    · exact hnext
    · show (s.pc + 4).toNat ≤ 4350
      bv_omega
  cases i
  case seImm | sneImm | seReg | sneReg | skp | sknp => exact hskip _
  case jp nnn | call nnn =>
    show (nnn.setWidth 16).toNat ≤ 4350
    bv_omega
  case jpV0 nnn =>
    show (nnn.setWidth 16 + (s.reg 0).setWidth 16).toNat ≤ 4350
    bv_omega
  case ret =>
    have htop := stackTop_le h
    show (stackTop s + 2).toNat ≤ 4350
    bv_omega
  case ldVxK =>
    simp only [pcAfter]
    split
    · exact h.1
    · exact hnext
  case exit | freeze => exact h.1
  all_goals exact hnext

theorem effect_stack_le (hpc : s.pc.toNat ≤ 4094) (h : ∀ k : Fin 16, s.stack[k].toNat ≤ 4094) (k : Fin 16) :
    (effect i s).stack[k].toNat ≤ 4094 := by
  cases i
  case call nnn =>
    show ((s.stack.setIfInBounds s.sp.val s.pc)[k.val]).toNat ≤ 4094
    rw [Vector.getElem_setIfInBounds]
    split
    · exact hpc
    · exact h k
  all_goals
    rw [effect_stack (by simp)]
    exact h k

/-! The whole invariant, by the moves of the machine. -/

theorem Inv.afterEffect (h : Inv s) (hhalt : s.halt = none) (hpc : s.pc.toNat ≤ 4094) (hf : ownFault i s = none) :
    Inv (effect i s) where
  memWf := effect_mem_wf h.memWf hf
  displayWf := effect_display_wf h.displayWf
  clocks := by rw [effect_frame]; exact h.clocks
  outcome := .inl (by rw [effect_frame]; exact hhalt)
  pcBound := ⟨by rw [effect_pc]; exact pcAfter_le hpc h.pcBound, effect_stack_le hpc h.pcBound.2⟩
  params := by rw [effect_frame]; exact h.params
  calls := by rw [effect_frame]; exact h.calls

theorem Inv.clearSignal (h : Inv s) : Inv s.clearSignal := { h with outcome := .inr rfl }

/-- A call in progress may end at any time. -/
theorem Inv.endCall (h : Inv s) : Inv { s with batch := .idle } :=
  { h with calls := ⟨h.calls.1, h.calls.2.1, nofun, .inr rfl⟩ }

/-- Steps may be to come while no fault is recorded. -/
theorem Inv.withSteps (h : Inv s) (hhalt : s.halt = none) (left : Nat) : Inv { s with batch := .steps left } :=
  { h with calls := ⟨h.calls.1, h.calls.2.1, nofun, .inl hhalt⟩ }

theorem Inv.withFault (h : Inv s) (hsignal : s.signal = none) (hbatch : s.batch = .idle) (f : CoreFault) :
    Inv { s with halt := some f } :=
  { h with
    outcome := .inr hsignal
    calls := ⟨h.calls.1, h.calls.2.1, h.calls.2.2.1, .inr hbatch⟩ }

/-- An engine step keeps the invariant and records nothing, or records a fault and changes nothing else but the last signal's record. -/
theorem executeNext_keeps_or_faults (h : Inv s) (hx : executeNext s = .next t) :
    (t.halt = none ∧ Inv t) ∨ ∃ f, t = { s.clearSignal with halt := some f } := by
  obtain ⟨hhalt, ⟨f, -, rfl⟩ | ⟨op, -, -, -, rfl⟩ | ⟨op, i, hfetch, -, hexec⟩⟩ := executeNext_cases hx
  · exact .inr ⟨f, rfl⟩
  · exact .inr ⟨_, rfl⟩
  · obtain ⟨hf, rfl⟩ | ⟨f, -, rfl⟩ := exec_next_eq hexec
    · have hpc : s.clearSignal.pc.toNat ≤ 4094 := pc_le_of_fetch hfetch
      refine .inl ⟨by rw [effect_frame]; exact hhalt, h.clearSignal.afterEffect hhalt hpc hf⟩
    · exact .inr ⟨f, rfl⟩

theorem endBatch_of_halt {f : CoreFault} (h : s.halt = some f) : endBatch (.next s) = .next { s with batch := .idle } :=
  if_neg (by simp [h])

/-- A call in progress means that no fault is recorded. -/
theorem Inv.halt_of_batch (h : Inv s) (hb : s.batch ≠ .idle) : s.halt = none := h.calls.2.2.2.resolve_right hb

theorem due_period (c : Clock) (now : Nat) : (due c now).2.period = c.period := by
  unfold due; split <;> rfl

theorem due_last_le {c : Clock} {now : Nat} (h : c.last ≤ now) : (due c now).2.last ≤ now := by
  unfold due
  split
  · exact le_rfl
  · exact h

theorem Inv.afterTick (h : Inv s) : Inv (tick s) := { h with }

theorem engineMove_keeps_inv (h : Inv s) (hm : engineMove s = .next t) : Inv t := by
  cases hb : s.batch with
  | idle =>
    rw [engineMove_idle hb] at hm
    obtain ⟨-, ht⟩ | ⟨f, rfl⟩ := executeNext_keeps_or_faults h hm
    · exact ht
    · exact h.clearSignal.withFault rfl hb f
  | cycleTicks now left =>
    have hhalt := h.halt_of_batch (by simp [hb])
    obtain ⟨htmr, hcpu, hnow, -⟩ := h.calls
    cases left with
    | zero =>
      rw [engineMove_lastTick hb] at hm
      cases hm
      obtain ⟨hrate, hperiod, hratio, htimer⟩ := h.clocks
      exact { h with
        clocks := ⟨hrate, (due_period _ _).trans hperiod, hratio, htimer⟩
        calls := ⟨htmr, due_last_le (hcpu.trans_eq (hnow _ _ hb).symm) |>.trans_eq (hnow _ _ hb), nofun, .inl hhalt⟩ }
    | succ left =>
      rw [engineMove_tick hb] at hm
      cases hm
      exact { h with calls := ⟨htmr, hcpu, fun _ _ e => by cases e; exact hnow _ _ hb, .inl hhalt⟩ }
  | steps left =>
    have hhalt := h.halt_of_batch (by simp [hb])
    cases left with
    | zero =>
      rw [engineMove_return hb] at hm
      cases hm
      exact h.endCall
    | succ left =>
      rw [engineMove_step hb] at hm
      obtain ⟨u, hu, htu⟩ := endBatch_eq_next hm
      obtain ⟨-, hinv⟩ | ⟨f, rfl⟩ := executeNext_keeps_or_faults (h.withSteps hhalt left) hu
      · obtain rfl | rfl := htu
        · exact hinv
        · exact hinv.endCall
      · rw [hu, endBatch_of_halt rfl] at hm
        cases hm
        exact h.endCall.clearSignal.withFault rfl rfl f

/-! The events of the outside world. -/

theorem toggleKey_keeps_inv {key : Nat} {pressed : Bool} (h : Inv s) (hm : toggleKey key pressed s = .next t) : Inv t := by
  unfold toggleKey at hm
  split at hm
  · cases hm; exact { h with }
  · cases hm

theorem Inv.afterWarmReset (h : Inv s) : Inv (warmReset s) :=
  { h with
    displayWf := Display.blank_wf false
    outcome := .inl rfl
    pcBound := ⟨by simp [warmReset], h.pcBound.2⟩
    calls := ⟨h.calls.1, h.calls.2.1, h.calls.2.2.1, .inl rfl⟩ }

theorem setClock_keeps_inv {hz : Nat} (h : Inv s) (hm : setClock hz s = .next t) : Inv t := by
  unfold setClock at hm
  split at hm
  · cases hm
  · next hhz =>
    cases hm
    exact { h with clocks := ⟨Nat.le_of_not_lt hhz, rfl, rfl, h.clocks.2.2.2⟩ }

theorem callCycle_keeps_inv {now : Nat} (h : Inv s) (hm : callCycle now s = .next t) : Inv t := by
  obtain ⟨hhalt, -, -, hcall⟩ := driveBy_eq_next hm
  split at hcall
  · cases hcall
  · next hnow =>
    cases hcall
    obtain ⟨hrate, hperiod, hratio, htimer⟩ := h.clocks
    exact { h with
      clocks := ⟨hrate, hperiod, hratio, (due_period _ _).trans htimer⟩
      calls := ⟨due_last_le (by omega), by show s.cpu.last ≤ now; omega, fun _ _ e => by cases e; rfl, .inl hhalt⟩ }

theorem callCycle60Hz_keeps_inv (h : Inv s) (hm : callCycle60Hz s = .next t) : Inv t := by
  obtain ⟨hhalt, -, -, hcall⟩ := driveBy_eq_next hm
  cases hcall
  exact { h with calls := ⟨h.calls.1, h.calls.2.1, nofun, .inl hhalt⟩ }

theorem hostEvent_keeps_inv {e : HostEvent} (h : Inv s) (hm : hostEvent e s = .next t) : Inv t := by
  cases e with
  | advance => exact engineMove_keeps_inv h hm
  | tick => cases hm; exact h.afterTick
  | toggleKey key pressed => exact toggleKey_keeps_inv h hm
  | reset => cases hm; exact h.afterWarmReset
  | setClock hz => exact setClock_keeps_inv h hm
  | incrementClock d => exact setClock_keeps_inv h hm
  | cycle now => exact callCycle_keeps_inv h hm
  | cycle60Hz => exact callCycle60Hz_keeps_inv h hm

theorem Inv.withInputs (h : Inv s) (rest : List HostEvent) : Inv { s with inputs := rest } := { h with }

end

/-- Settles O16: a step is the engine's move or the first host event, and each of them keeps the invariant. -/
theorem stepKeepsInvariant : Obligations.StepKeepsInvariant := by
  intro s t h hstep
  cases hin : s.inputs with
  | nil => exact engineMove_keeps_inv h (step_of_no_input hin ▸ hstep)
  | cons e rest => exact hostEvent_keeps_inv (h.withInputs rest) (step_of_input hin ▸ hstep)

end Sys2Proof.Machine
end

section
/-! PROOFS. The fault record under every move, the key input, and the cold reset. -/

open Sys2Proof

namespace Sys2Proof.Machine

section
variable {s t : State} {f : CoreFault}

/-! A recorded fault under the moves of the machine (10_state.md R43, 60_exceptions.md R241). -/

theorem engineMove_keeps_halt (h : s.halt = some f) (hm : engineMove s = .next t) : t.halt = some f := by
  cases hb : s.batch with
  | idle => rw [engineMove_idle hb, executeNext_halted h] at hm; cases hm
  | cycleTicks now left =>
    cases left with
    | zero => rw [engineMove_lastTick hb] at hm; cases hm; exact h
    | succ left => rw [engineMove_tick hb] at hm; cases hm; exact h
  | steps left =>
    cases left with
    | zero => rw [engineMove_return hb] at hm; cases hm; exact h
    | succ left =>
      have hstop : executeNext { s with batch := .steps left } = .fault (.halted f) := executeNext_halted h
      rw [engineMove_step hb, hstop] at hm; cases hm

theorem driveBy_halted (mode : Driving) (call : Result) (h : s.halt = some f) :
    driveBy mode s call = .refused (.calledAfterFault f) := by
  unfold driveBy; rw [h]

theorem toggleKey_eq_next {key : Nat} {pressed : Bool} (h : toggleKey key pressed s = .next t) :
    t = { s with keys := t.keys, wait := t.wait } := by
  unfold toggleKey at h
  split at h
  · cases h; rfl
  · cases h

theorem setClock_eq_next {hz : Nat} (h : setClock hz s = .next t) :
    t = { s with clockHz := t.clockHz, cpu := t.cpu, ratio := t.ratio } := by
  unfold setClock at h
  split at h
  · cases h
  · cases h; rfl

/-- No event but the reset clears a recorded fault. -/
theorem hostEvent_keeps_halt {e : HostEvent} (h : s.halt = some f) (he : e ≠ .reset) (hm : hostEvent e s = .next t) :
    t.halt = some f := by
  cases e with
  | advance => exact engineMove_keeps_halt h hm
  | tick => cases hm; exact h
  | toggleKey key pressed => rw [toggleKey_eq_next hm]; exact h
  | reset => exact absurd rfl he
  | setClock hz => rw [setClock_eq_next hm]; exact h
  | incrementClock d => rw [setClock_eq_next hm]; exact h
  | cycle now => exact absurd ((driveBy_halted _ _ h).symm.trans hm) nofun
  | cycle60Hz => exact absurd ((driveBy_halted _ _ h).symm.trans hm) nofun

theorem step_keeps_halt (h : s.halt = some f) (hm : step s = .next t) : t.halt = some f ∨ ∃ rest, s.inputs = .reset :: rest := by
  cases hin : s.inputs with
  | nil => exact .inl (engineMove_keeps_halt h (step_of_no_input hin ▸ hm))
  | cons e rest =>
    by_cases he : e = .reset
    · exact .inr ⟨rest, by rw [he]⟩
    · exact .inl (hostEvent_keeps_halt (s := { s with inputs := rest }) h he (step_of_input hin ▸ hm))

/-- A timer goes down by one and stops at zero (60_exceptions.md R270). -/
theorem countDown_toNat (b : Byte) : (countDown b).toNat = b.toNat - 1 := by
  unfold countDown
  split
  · bv_omega
  · omega

theorem toggleKey_of_lt {k : Nat} (h : k < 16) (pressed : Bool) :
    toggleKey k pressed s = .next { s with
      keys := s.keys.set k pressed h
      wait := if pressed && s.wait == .waiting then .keyPressed (BitVec.ofNat 4 k) else s.wait } := dif_pos h

end

/-- Settles O8: a halted engine stops, the drive calls are refused, tick and keys move, and no move but the reset clears the record. -/
theorem haltedEngineOnlyResetClears : Obligations.HaltedEngineOnlyResetClears := by
  intro s f h
  refine ⟨executeNext_halted h, fun hin hb => ?idle, fun rest hin => ?tick, fun rest k b hin hk => ?key, fun rest hin => ?reset,
    fun rest now hin => ?cycle, fun rest hin => ?cycle60Hz, fun t => step_keeps_halt h⟩
  case idle => rw [step_of_no_input hin, engineMove_idle hb, executeNext_halted h]
  case tick => exact ⟨_, step_of_input hin, h, countDown_toNat _⟩
  case key => exact ⟨_, (step_of_input hin).trans (toggleKey_of_lt hk b), h, by simp [hk]⟩
  case reset => exact ⟨_, step_of_input hin, rfl⟩
  case cycle => exact (step_of_input hin).trans (driveBy_halted _ _ h)
  case cycle60Hz => exact (step_of_input hin).trans (driveBy_halted _ _ h)

/-- Settles O54: a key 0 to 15 is set, and wakes the wait exactly when pressed during one; a larger key is refused. -/
theorem toggleKeySetsAndWakes : Obligations.ToggleKeySetsAndWakes := by
  intro s k pressed rest hin
  rw [step_of_input hin]
  refine ⟨fun hk => ⟨_, toggleKey_of_lt hk pressed, rfl, fun j => ?key, fun hp hw => ?wake, fun hkeep => ?keep⟩,
    fun hk => dif_neg (by omega)⟩
  case key => simp [Vector.getElem_set, eq_comm]
  case wake => simp [hp, hw]
  case keep =>
    obtain rfl | hw := hkeep
    · rfl
    · simp [hw]

/-! The cold reset (10_state.md R50, 70_reset_and_hazards.md R290). -/

section
variable {rom fontBytes : List Byte}

/-- The memory of a fresh machine: the font at 0, the ROM at 512. -/
def coldMemory (fontBytes rom : List Byte) : Memory := (State.reset.mem.writeBytes 0 fontBytes).writeBytes 512 rom

theorem fontMemory_wf (hf : fontBytes.length ≤ 240) : (State.reset.mem.writeBytes 0 fontBytes).wf = true :=
  Memory.writeBytes_wf State.reset_mem_wf _ (by omega)

theorem coldMemory_wf (hf : fontBytes.length ≤ 240) (hr : rom.length ≤ 3584) : (coldMemory fontBytes rom).wf = true :=
  Memory.writeBytes_wf (fontMemory_wf hf) _ (by omega)

theorem read_coldMemory (hf : fontBytes.length ≤ 240) (hr : rom.length ≤ 3584) (a : Nat) :
    (coldMemory fontBytes rom).read a =
      if 512 ≤ a ∧ a < 512 + rom.length then rom.getD (a - 512) 0
      else if a < fontBytes.length then fontBytes.getD a 0 else unlistedByte a := by
  unfold coldMemory
  rw [Memory.read_writeBytes (fontMemory_wf hf) _ (by omega), Memory.read_writeBytes State.reset_mem_wf _ (by omega)]
  simp only [Nat.zero_le, true_and, Nat.zero_add, Nat.sub_zero]
  rfl

theorem unlistedByte_past_font {a : Nat} (h : 240 ≤ a) : unlistedByte a = 0 := by
  unfold unlistedByte; rw [if_neg (by omega), if_neg (by omega)]

theorem construct_eq {font : Option (List Byte)} {p : Params} (src : RndSource) (hp : p.legal = true)
    (hf : ∀ f, font = some f → f.length = 240) (hr : rom.length ≤ 3584) :
    construct rom font p src =
      .next { State.reset with mem := coldMemory (font.getD []) rom, params := p, rndSource := src } := by
  have hfont : font.any (fun f => f.length != 240) = false := by
    cases font with
    | none => rfl
    | some f => simp [hf f rfl]
  unfold construct coldMemory
  rw [if_neg (by omega), if_neg (by simp [hfont]), if_neg (by simp [hp])]

end

/-- Settles O17: every cell but memory has its constant, memory is read by where the font and the ROM were copied, and a ROM that does
not fit is refused. -/
theorem coldResetValues : Obligations.ColdResetValues := by
  intro rom font p src hp hf
  refine ⟨fun hr => ⟨_, construct_eq src hp hf hr, ?_⟩, fun hr => if_pos hr⟩
  have hlen : (font.getD []).length ≤ 240 := by
    cases font with
    | none => simp
    | some f => simp [hf f rfl]
  refine ⟨fun k hk => ?rom, fun f hsome a ha => ?font, fun a ha hout => ?zero, fun r => ?reg, rfl, rfl, rfl, fun k => ?stack,
    fun k => ?fb, rfl, rfl, fun k => ?keys, rfl, rfl, Display.blank_wf false, Display.pix_blank false, rfl, rfl, rfl, rfl, rfl,
    rfl, rfl, coldMemory_wf hlen hr, rfl⟩
  case rom => simp [read_coldMemory hlen hr, hk]
  case font =>
    subst hsome
    rw [read_coldMemory hlen hr, if_neg (by omega), if_pos (by simpa [hf f rfl] using ha)]
    rfl
  case zero => rw [read_coldMemory hlen hr, if_neg (by omega), if_neg (by omega), unlistedByte_past_font ha]
  case reg => simp [State.reg, State.reset]
  case stack | fb | keys => simp [State.reset]

end Sys2Proof.Machine
end

section
/-! PROOFS. The bytes of memory an instruction leaves alone (20_memory.md R65). -/

open Sys2Proof

namespace Sys2Proof.Machine

/-- A completed instruction leaves every byte it does not store to: the two stores write a list of bytes at `State.address`, as long as
`storesAt` says, and no other instruction touches memory. -/
theorem effect_mem_read {i : Instr} {s : State} {a : Nat}
    (h : ∀ base n, storesAt i s = some (base, n) → ¬ (base ≤ a ∧ a < base + n)) :
    (effect i s).mem.read a = s.mem.read a := by
  cases i
  case ldB x => exact Memory.read_writeBytes_outside (decimalDigits (s.reg x)) s.mem (h _ _ rfl)
  case ldMemVx x =>
    refine Memory.read_writeBytes_outside (s.firstRegs x) s.mem ?_
    rw [State.firstRegs_length]
    exact h _ _ rfl
  all_goals rw [effect_mem (by simp) (by simp)]

/-- Settles O13: the effect leaves every byte outside the stored ones, and a fault leaves all of memory. -/
theorem memoryFrame : Obligations.MemoryFrame := by
  intro i s t h a ha
  obtain ⟨-, rfl⟩ | ⟨f, -, rfl⟩ := exec_next_eq h
  · exact effect_mem_read ha
  · rfl

end Sys2Proof.Machine
end

section
/-! PROOFS. The decoder: the word an instruction encodes to decodes to it, and every word either is the encoding of what it decodes
to or is one of the words 30_encoding.md R106 lists. -/

open Sys2Proof

namespace Sys2Proof

/-! Decoding what `encode` writes (30_encoding.md R95). -/

/-- The front of a list of bytes decodes as the word there, and the bytes after it are given back (R90, R108). -/
theorem decode_bytesOfWord_append (fw : Option Word) (op : Word) (rest : List Byte) :
    decode fw (bytesOfWord op ++ rest) = (decodeWord fw op).map fun i => (i, rest) := by
  simp [decode, bytesOfWord]

/-- Family 0 is the words below 4096 (R92). -/
theorem lt_of_fieldW_eq_zero {op : Word} (hw : (fieldW op).toNat = 0) : op.toNat < 4096 := by
  rw [fieldW_toNat] at hw; omega

theorem fieldXY_eq_iff_of_lt {op : Word} (h : op.toNat < 4096) (xy : Byte) : fieldXY op = xy ↔ op.toNat / 16 = xy.toNat := by
  rw [← BitVec.toNat_inj, fieldXY_toNat, Nat.mod_eq_of_lt (by omega)]

theorem fieldNNN_eq_iff_of_lt {op : Word} (h : op.toNat < 4096) (nnn : Addr) : fieldNNN op = nnn ↔ op.toNat = nnn.toNat := by
  rw [← BitVec.toNat_inj, fieldNNN_toNat, Nat.mod_eq_of_lt h]

/-- What the type of `FREEZE_WORD` asks of a word (00_scope.md R6). -/
theorem legalFreezeWord_iff (f : Word) :
    legalFreezeWord f = true ↔ f.toNat < 4096 ∧ f.toNat / 16 ≠ 0x0C ∧ f.toNat ∉ assignedZeroWords := by
  simp [legalFreezeWord, and_assoc]

/-- A legal `FREEZE_WORD` decodes to FREEZE: the words assigned before it leave it alone (R101, R107). -/
theorem decodeWord_freezeWord {f : Word} (h : legalFreezeWord f = true) : decodeWord (some f) f = .ok .freeze := by
  obtain ⟨hlt, hscd, hassigned⟩ := (legalFreezeWord_iff f).1 h
  have hw : (fieldW f).toNat = 0 := by rw [fieldW_toNat]; omega
  simp only [assignedZeroWords, List.mem_cons, List.not_mem_nil, or_false, not_or] at hassigned
  simp [decodeWord, hw, decodeZero, fieldXY_eq_iff_of_lt hlt, fieldNNN_eq_iff_of_lt hlt, hscd, hassigned]

/-- The word of a well-formed instruction decodes to it, family by family. -/
theorem decodeWord_encode {fw : Option Word} {i : Instr} (h : WellFormed fw i = true) : decodeWord fw (encode fw i) = .ok i := by
  cases i
  case freeze =>
    cases fw with
    | none => cases h
    | some f => exact decodeWord_freezeWord h
  case scd z => simp [encode, decodeWord, decodeZero]
  case cls | ret | scr | scl | exit | low | high => simp [encode, decodeWord, decodeZero, fieldW, fieldXY, fieldNNN]
  case jp | call | ldI | jpV0 | seImm | sneImm | ldImm | addImm | rnd => simp [encode, decodeWord]
  case seReg | sneReg => simp [encode, decodeWord, decodeRegSkip]
  case ldReg | or | and | xor | addReg | sub | shr | subn | shl => simp [encode, decodeWord, decodeAlu]
  case drw x y z =>
    have hz : z ≠ 0#4 := by simpa [WellFormed] using h
    simp [encode, decodeWord, decodeDraw, hz]
  case drw16 => simp [encode, decodeWord, decodeDraw]
  case skp | sknp => simp [encode, decodeWord, decodeKeySkip]
  case ldVxDt | ldVxK | ldDt | ldSt | addI | ldF | ldHf | ldB | ldMemVx | ldVxMem | ldR | ldVxR =>
    simp [encode, decodeWord, decodeMisc]

/-! A word put together from its known fields and the fields read from it, in each of the formats (R93). -/

section
variable {op : Word} {w : Nibble} (hw : (fieldW op).toNat = w.toNat)
include hw

theorem word_of_xyz {z : Nibble} (hz : (fieldZ op).toNat = z.toNat) : w ++ fieldX op ++ fieldY op ++ z = op := by
  rw [← BitVec.eq_of_toNat_eq hw, ← BitVec.eq_of_toNat_eq hz, word_eq_xyz]

theorem word_of_xkk {kk : Byte} (hkk : (fieldKK op).toNat = kk.toNat) : w ++ fieldX op ++ kk = op := by
  rw [← BitVec.eq_of_toNat_eq hw, ← BitVec.eq_of_toNat_eq hkk, word_eq_xkk]

theorem word_of_nnn : w ++ fieldNNN op = op := by
  rw [← BitVec.eq_of_toNat_eq hw, word_eq_nnn]

end

theorem word_of_scd {op : Word} (h : op.toNat / 16 = 0x0C) : 0x00C#12 ++ fieldZ op = op := by
  apply BitVec.eq_of_toNat_eq
  rw [BitVec.toNat_append, ← Nat.shiftLeft_add_eq_or_of_lt (fieldZ op).isLt, fieldZ_toNat, BitVec.toNat_ofNat]
  omega

/-! Everything the decoder can answer (R95, R101 to R106). -/

/-- What a decoded word must be, where `bad` says which words are invalid: the encoding of a well-formed instruction when it is
valid, and the error that names it when it is not. -/
def Agrees (fw : Option Word) (op : Word) (bad : Prop) (answer : Except DecodeError Instr) : Prop :=
  match answer with
  | .ok i => ¬ bad ∧ WellFormed fw i = true ∧ encode fw i = op
  | .error e => bad ∧ e = .invalid op

theorem Agrees.congr {fw : Option Word} {op : Word} {bad bad' : Prop} {answer : Except DecodeError Instr}
    (h : Agrees fw op bad answer) (hbad : bad' ↔ bad) : Agrees fw op bad' answer := propext hbad ▸ h

/-- The invalid words of family 0 (R106). -/
def InvalidZero (fw : Option Word) (op : Word) : Prop :=
  op.toNat / 16 ≠ 0x0C ∧ op.toNat ∉ assignedZeroWords ∧ fw ≠ some op

/-- The invalid words, family by family (R106). -/
def InvalidWord (fw : Option Word) (op : Word) : Prop :=
  (op.toNat / 4096 = 0 ∧ InvalidZero fw op) ∨
  ((op.toNat / 4096 = 5 ∨ op.toNat / 4096 = 9) ∧ op.toNat % 16 ≠ 0) ∨
  (op.toNat / 4096 = 8 ∧ op.toNat % 16 ∈ [0x8, 0x9, 0xA, 0xB, 0xC, 0xD, 0xF]) ∨
  (op.toNat / 4096 = 14 ∧ op.toNat % 256 ∉ [0x9E, 0xA1]) ∨
  (op.toNat / 4096 = 15 ∧ op.toNat % 256 ∉ [0x07, 0x0A, 0x15, 0x18, 0x1E, 0x29, 0x30, 0x33, 0x55, 0x65, 0x75, 0x85])

section
variable {fw : Option Word} {op : Word}

theorem decodeZero_agrees (hlegal : fw.all legalFreezeWord = true) (hw : (fieldW op).toNat = 0) :
    Agrees fw op (InvalidZero fw op) (decodeZero fw op) := by
  have hlt := lt_of_fieldW_eq_zero hw
  have hassigned {nnn : Addr} (h : fieldNNN op = nnn) : op = 0x0#4 ++ nnn := h ▸ (word_of_nnn hw).symm
  unfold decodeZero
  split_ifs with hscd hcls hret hscr hscl hexit hlow hhigh hfreeze
  · have hz := (fieldXY_eq_iff_of_lt hlt _).1 hscd
    exact ⟨fun hbad => hbad.1 hz, rfl, word_of_scd hz⟩
  iterate 7
    · have hop := hassigned ‹_›
      exact ⟨fun hbad => hbad.2.1 (by rw [hop]; decide), rfl, hop.symm⟩
  · subst hfreeze
    exact ⟨fun hbad => hbad.2.2 rfl, hlegal, rfl⟩
  · rw [fieldXY_eq_iff_of_lt hlt] at hscd
    simp only [fieldNNN_eq_iff_of_lt hlt] at hcls hret hscr hscl hexit hlow hhigh
    exact ⟨⟨hscd, by simpa [assignedZeroWords] using ⟨hcls, hret, hscr, hscl, hexit, hlow, hhigh⟩, hfreeze⟩, rfl⟩

theorem decodeAlu_agrees (hw : (fieldW op).toNat = 8) :
    Agrees fw op (op.toNat % 16 ∈ [0x8, 0x9, 0xA, 0xB, 0xC, 0xD, 0xF]) (decodeAlu op) := by
  unfold decodeAlu
  rw [← fieldZ_toNat]
  have hlt := (fieldZ op).isLt
  split
  case h_10 =>
    simp only [imp_false] at *
    exact ⟨by simp only [List.mem_cons, List.not_mem_nil, or_false]; omega, rfl⟩
  all_goals
    next hz => exact ⟨by rw [hz]; decide, rfl, word_of_xyz hw hz⟩

theorem decodeRegSkip_agrees {i : Instr} (hwf : WellFormed fw i = true) (henc : fieldZ op = 0#4 → encode fw i = op) :
    Agrees fw op (op.toNat % 16 ≠ 0) (decodeRegSkip op i) := by
  unfold decodeRegSkip
  rw [← fieldZ_toNat]
  split
  · next hz => exact ⟨by simp [hz], hwf, henc hz⟩
  · next hz => exact ⟨fun h => hz (BitVec.eq_of_toNat_eq h), rfl⟩

/-- No word of family D is invalid: its height 0 is the 16x16 draw (R103). -/
theorem decodeDraw_agrees (hw : (fieldW op).toNat = 13) : Agrees fw op False (decodeDraw op) := by
  unfold decodeDraw
  split
  · next hz => exact ⟨id, rfl, word_of_xyz hw (congrArg BitVec.toNat hz)⟩
  · next hz => exact ⟨id, by simpa [WellFormed] using hz, word_of_xyz hw rfl⟩

theorem decodeKeySkip_agrees (hw : (fieldW op).toNat = 14) :
    Agrees fw op (op.toNat % 256 ∉ [0x9E, 0xA1]) (decodeKeySkip op) := by
  unfold decodeKeySkip
  rw [← fieldKK_toNat]
  split
  case h_3 => exact ⟨by simp_all, rfl⟩
  all_goals
    next hkk => exact ⟨by rw [hkk]; decide, rfl, word_of_xkk hw hkk⟩

theorem decodeMisc_agrees (hw : (fieldW op).toNat = 15) :
    Agrees fw op (op.toNat % 256 ∉ [0x07, 0x0A, 0x15, 0x18, 0x1E, 0x29, 0x30, 0x33, 0x55, 0x65, 0x75, 0x85]) (decodeMisc op) := by
  unfold decodeMisc
  rw [← fieldKK_toNat]
  split
  case h_13 => exact ⟨by simp_all, rfl⟩
  all_goals
    next hkk => exact ⟨by rw [hkk]; decide, rfl, word_of_xkk hw hkk⟩

/-- Every word, by its high nibble: it encodes the well-formed instruction it decodes to, or it is invalid and R106 lists it. -/
theorem decodeWord_agrees (hlegal : fw.all legalFreezeWord = true) : Agrees fw op (InvalidWord fw op) (decodeWord fw op) := by
  have hlt := (fieldW op).isLt
  unfold decodeWord InvalidWord
  rw [← fieldW_toNat]
  -- `split` numbers its cases from 1: case `h_k` is the family of high nibble k - 1, `h_17` the value no nibble has.
  split <;> rename_i hw
  case h_1 => exact (decodeZero_agrees hlegal hw).congr (by simp [hw])
  case h_6 | h_10 =>
    exact (decodeRegSkip_agrees rfl fun hz => word_of_xyz hw (congrArg BitVec.toNat hz)).congr (by simp [hw])
  case h_9 => exact (decodeAlu_agrees hw).congr (by simp [hw])
  case h_14 => exact (decodeDraw_agrees hw).congr (by simp [hw])
  case h_15 => exact (decodeKeySkip_agrees hw).congr (by simp [hw])
  case h_16 => exact (decodeMisc_agrees hw).congr (by simp [hw])
  case h_2 | h_3 | h_11 | h_12 => exact ⟨by simp [hw], rfl, word_of_nnn hw⟩
  case h_4 | h_5 | h_7 | h_8 | h_13 => exact ⟨by simp [hw], rfl, word_of_xkk hw rfl⟩
  case h_17 => simp only [imp_false] at *; omega

end

/-- Settles O1: the word decodes to its instruction, and decoding a list of bytes takes the word at its front. -/
theorem decodeEncodeRoundTrip : Obligations.DecodeEncodeRoundTrip := by
  intro fw i rest h
  rw [decode_bytesOfWord_append, decodeWord_encode h]
  rfl

/-- Settles O2: what a valid word decodes to agrees with the word. -/
theorem encodeDecodeRoundTrip : Obligations.EncodeDecodeRoundTrip := by
  intro fw op i hlegal hd
  have h : Agrees fw op (InvalidWord fw op) (decodeWord fw op) := decodeWord_agrees hlegal
  rw [hd] at h
  exact h.2

/-- Settles O3: the answer of the decoder is an instruction and the word is not listed, or the error and it is. -/
theorem invalidWordsExactly : Obligations.InvalidWordsExactly := by
  intro fw op hlegal
  have h : Agrees fw op (InvalidWord fw op) (decodeWord fw op) := decodeWord_agrees hlegal
  cases hd : decodeWord fw op with
  | ok i =>
    rw [hd] at h
    exact ⟨.inl ⟨i, rfl⟩, nofun, fun hbad => absurd hbad h.1⟩
  | error e =>
    rw [hd] at h
    obtain ⟨hbad, rfl⟩ := h
    exact ⟨.inr rfl, fun _ => hbad, fun _ => rfl⟩

/-- Settles O4: each word is a literal, and the decoder runs on it. -/
theorem tableWordsDecode : Obligations.TableWordsDecode :=
  ⟨rfl, rfl, rfl, rfl, rfl, rfl, rfl, rfl, rfl, rfl, rfl, rfl, rfl⟩

end Sys2Proof
end

section
/-! PROOFS. The engine's step by the word at `PC` (30_encoding.md R91, R110). -/

open Sys2Proof

namespace Sys2Proof.Machine

theorem fetch_eq_wordAtPc {s : State} (h : s.pc.toNat ≤ 4094) : fetch s = .ok (wordAtPc s) := fetch_inRange h

/-- On the engine's turn, with no call in progress, a step is one engine step. -/
theorem step_eq_executeNext {s u : State} (hturn : EngineTurn s u) (hb : u.batch = .idle) : step s = executeNext u :=
  (step_of_engineTurn hturn).trans (engineMove_idle hb)

/-- Settles O5: the fetch gives the word at `PC`, and the step runs what it decodes to. -/
theorem stepRunsDecodedInstruction : Obligations.StepRunsDecodedInstruction := by
  intro u i hhalt hpc hd
  have hrun : executeNext u = exec i { u with signal := none } := executeNext_runs hhalt (fetch_eq_wordAtPc hpc) hd
  exact ⟨hrun, fun s hturn hb => (step_eq_executeNext hturn hb).trans hrun⟩

/-- Settles O7: the step is an engine step, which ends at the failed fetch or at the word that decodes to nothing. -/
theorem fetchAndDecodeFaults : Obligations.FetchAndDecodeFaults := by
  intro s u hturn hhalt hb
  rw [step_eq_executeNext hturn hb]
  exact ⟨fun hpc => executeNext_fetchFault hhalt (fetch_outOfRange hpc),
    fun e hpc hd => executeNext_invalid hhalt (fetch_eq_wordAtPc hpc) hd⟩

end Sys2Proof.Machine
end

section
/-! PROOFS. The display instructions that only change the grid (40_display_engine.md R120, R121, R124 to R127, R130 to R135): each
answers `(s.withDisplay d).next`, and the pixels of `d` are those of the primitive. -/

open Sys2Proof

namespace Sys2Proof.Machine

theorem State.onlyDisplayAndPc_withDisplay (s : State) (d : Display) : OnlyDisplayAndPc s (s.withDisplay d).next := rfl

@[simp] theorem Display.pix_clear (d : Display) (r c : Nat) : d.clear.pix r c = false := Display.pix_blank d.hires r c

theorem Display.setHires_same (d : Display) : d.setHires d.hires = d := if_pos rfl

theorem Display.setHires_other {d : Display} {b : Bool} (h : d.hires ≠ b) : d.setHires b = Display.blank b := if_neg h

/-- What `scroll_down(n)` does to a pixel. -/
theorem Display.pix_scrollDown {d : Display} {n r c : Nat} (hr : r < d.height) :
    (d.scrollDown n).pix r c = if d.downStep n ≤ r then d.pix (r - d.downStep n) c else false := by
  simp only [Display.scrollDown, Display.pix]
  generalize d.downStep n = k
  simp only [List.getD_eq_getElem?_getD]
  by_cases hk : k ≤ r
  · have hkept : r - k < d.height - k := by omega
    rw [if_pos hk, List.getElem?_append_right (by simpa using hk), List.length_replicate, List.getElem?_take_of_lt hkept]
  · have hvacated : r < k := Nat.lt_of_not_le hk
    rw [if_neg hk, List.getElem?_append_left (by simpa using hvacated)]
    by_cases hc : c < d.width <;> simp [hvacated, hc]

/-- Settles O18: the cleared grid is the blank one. -/
theorem clsClearsEveryPixel : Obligations.ClsClearsEveryPixel := by
  intro fw s
  exact ⟨rfl, _, rfl, s.onlyDisplayAndPc_withDisplay _, rfl, rfl, s.display.clear_wf, s.display.pix_clear⟩

/-- Settles O19: LOW and HIGH are one primitive, which does nothing in the requested mode and else answers the blank grid. -/
theorem resolutionSwitchClearsOnce : Obligations.ResolutionSwitchClearsOnce := by
  intro s hires
  have hexec : exec (if hires then .high else .low) s = .next (s.withDisplay (s.display.setHires hires)).next := by
    cases hires <;> rfl
  refine ⟨_, hexec, s.onlyDisplayAndPc_withDisplay _, rfl, s.display.setHires_hires hires, ?same, fun hne => ?other⟩
  case same => rintro rfl; exact s.display.setHires_same
  case other =>
    simp only [State.next_display, State.withDisplay_display, Display.setHires_other hne]
    exact ⟨Display.blank_wf hires, Display.pix_blank hires⟩

/-- Settles O20: every row comes from the one the scroll distance above it, if the grid has it. -/
theorem scdMovesRowsDown : Obligations.ScdMovesRowsDown := by
  intro s z h
  exact ⟨_, rfl, s.onlyDisplayAndPc_withDisplay _, rfl, rfl, Display.scrollDown_wf h z.isLt,
    fun r hr c _ => Display.pix_scrollDown hr⟩

/-- Settles O21: every column comes from the one the scroll distance to its left, if the grid has it. -/
theorem scrMovesColumnsRight : Obligations.ScrMovesColumnsRight := by
  intro s h
  exact ⟨_, rfl, s.onlyDisplayAndPc_withDisplay _, rfl, rfl, Display.scrollRight_wf h,
    fun r hr c hc => Display.pix_scrollRight h hr hc⟩

/-- Settles O22: every column comes from the one the scroll distance to its right, if the grid has it. -/
theorem sclMovesColumnsLeft : Obligations.SclMovesColumnsLeft := by
  intro s h
  exact ⟨_, rfl, s.onlyDisplayAndPc_withDisplay _, rfl, rfl, Display.scrollLeft_wf h,
    fun r hr c hc => Display.pix_scrollLeft h hr hc⟩

/-- Settles O23: a pixel right of the vacated columns is moved left and back; none is lost, for its column is in the grid. -/
theorem scrollLeftThenRight : Obligations.ScrollLeftThenRight := by
  intro d h r hr c hc
  have hright : d.scrollLeft.scrollRight.pix r c = if d.scrollStep ≤ c then d.scrollLeft.pix r (c - d.scrollStep) else false :=
    Display.pix_scrollRight (Display.scrollLeft_wf h) hr hc
  have hback : d.scrollStep ≤ c → d.scrollLeft.pix r (c - d.scrollStep) = d.pix r c := fun hstep => by
    rw [Display.pix_scrollLeft h hr (by omega), Nat.sub_add_cancel hstep, if_pos (by omega)]
  exact hright.trans (ite_congr rfl hback fun _ => rfl)

end Sys2Proof.Machine
end

section
/-! PROOFS. The blits (40_display_engine.md R122, R123, R127 (a)): each XORs a picture into the grid and reports where the two meet, and
blits of pictures that do not overlap make up one blit. -/

open Sys2Proof

namespace Sys2Proof.Machine

/-- What a blit of the picture `p` onto `d` answers: every pixel XORed with the picture's, and whether a set pixel meets a set one of the
picture. -/
def Display.Blits (d : Display) (out : Display × Bool) (p : Nat → Nat → Prop) : Prop :=
  (∀ r c, out.1.pix r c = true ↔ Xor (d.pix r c = true) (p r c)) ∧ (out.2 = true ↔ ∃ r c, d.pix r c = true ∧ p r c)

/-- The bit that a list of row pairs (left, right) puts on a pixel: `BigSpriteBit` for any number of rows. -/
def PairBit (hires : Bool) (x0 y0 : Nat) (bytes : List Byte) (r c : Nat) : Prop :=
  ∃ k < bytes.length / 2, ∃ j < 8, (y0 + k) % heightOf hires = r ∧
    (((x0 + j) % widthOf hires = c ∧ (bytes.getD (2 * k) 0).getLsbD (7 - j) = true) ∨
      (hires = true ∧ (x0 + 8 + j) % widthOf hires = c ∧ (bytes.getD (2 * k + 1) 0).getLsbD (7 - j) = true))

theorem bigSpriteBit_iff_pairBit {bytes : List Byte} (h : bytes.length = 32) (hires : Bool) (x0 y0 r c : Nat) :
    BigSpriteBit hires x0 y0 bytes r c ↔ PairBit hires x0 y0 bytes r c := by
  unfold PairBit; rw [h]; exact Iff.rfl

/-! Which pixels a sprite reaches. -/

theorem not_spriteBit_nil (W H x0 y0 r c : Nat) : ¬ SpriteBit W H x0 y0 [] r c := by
  rintro ⟨k, hk, -⟩; exact absurd hk (Nat.not_lt_zero k)

theorem rowBit_spriteBits (W x0 : Nat) (b : Byte) (c : Nat) :
    RowBit W x0 (spriteBits b) c ↔ ∃ j < 8, (x0 + j) % W = c ∧ b.getLsbD (7 - j) = true := by
  have hlen : (spriteBits b).length = 8 := by simp [spriteBits]
  have hbit : ∀ j < 8, (spriteBits b).getD j false = b.getLsbD (7 - j) := fun j hj => by simp [spriteBits, hj]
  unfold RowBit
  rw [hlen]
  exact exists_congr fun j => and_congr_right fun hj => by rw [hbit j hj]

/-- A sprite's first row, and the rest one row lower. -/
theorem spriteBit_cons (W H x0 y0 : Nat) (b : Byte) (rest : List Byte) (r c : Nat) :
    SpriteBit W H x0 y0 (b :: rest) r c ↔
      (y0 % H = r ∧ RowBit W x0 (spriteBits b) c) ∨ SpriteBit W H x0 (y0 + 1) rest r c := by
  rw [rowBit_spriteBits]
  unfold SpriteBit
  rw [List.length_cons, Nat.exists_lt_succ_left]
  refine or_congr ?_ (exists_congr fun k => and_congr_right fun _ => ?_)
  · simp [and_left_comm (a := _ < 8)]
  · rw [Nat.add_right_comm y0 1 k]; rfl

theorem pairBit_cons (hires : Bool) (x0 y0 : Nat) (left right : Byte) (rest : List Byte) (r c : Nat) :
    PairBit hires x0 y0 (left :: right :: rest) r c ↔
      (y0 % heightOf hires = r ∧ (RowBit (widthOf hires) x0 (spriteBits left) c ∨
        (hires = true ∧ RowBit (widthOf hires) (x0 + 8) (spriteBits right) c))) ∨
      PairBit hires x0 (y0 + 1) rest r c := by
  have hlen : (left :: right :: rest).length / 2 = rest.length / 2 + 1 := by simp only [List.length_cons]; omega
  simp only [rowBit_spriteBits]
  unfold PairBit
  rw [hlen, Nat.exists_lt_succ_left]
  refine or_congr ?_ (exists_congr fun k => and_congr_right fun _ => ?_)
  · simp [and_or_left, exists_or, and_left_comm (a := _ < 8)]
  · rw [Nat.add_right_comm y0 1 k]; rfl

/-! Pictures that do not overlap: the rows of a sprite no taller than the grid, and the two bytes of a row pair in hi-res. -/

theorem not_spriteBit_firstRow {W H x0 y0 : Nat} {rest : List Byte} (h : rest.length < H) (c : Nat) :
    ¬ SpriteBit W H x0 (y0 + 1) rest (y0 % H) c := by
  rintro ⟨k, hk, j, -, hrow, -⟩; exact add_mod_ne (by omega) hrow

theorem not_pairBit_firstRow {hires : Bool} {x0 y0 : Nat} {rest : List Byte} (h : rest.length / 2 < heightOf hires) (c : Nat) :
    ¬ PairBit hires x0 (y0 + 1) rest (y0 % heightOf hires) c := by
  rintro ⟨k, hk, j, -, hrow, -⟩; exact add_mod_ne (by omega) hrow

theorem not_rowBit_right_of_left {x0 : Nat} {left right : Byte} {c : Nat} (h : RowBit 128 x0 (spriteBits left) c) :
    ¬ RowBit 128 (x0 + 8) (spriteBits right) c := by
  rw [rowBit_spriteBits] at h ⊢
  obtain ⟨j, hj, hcol, -⟩ := h
  rintro ⟨j', hj', hcol', -⟩
  omega

/-! Blits one after the other. -/

theorem Display.Blits.congr {d : Display} {out : Display × Bool} {p q : Nat → Nat → Prop} (h : d.Blits out p)
    (hpq : ∀ r c, q r c ↔ p r c) : d.Blits out q := by
  rwa [show q = p from funext₂ fun r c => propext (hpq r c)]

/-- Blitting nothing. -/
theorem Display.blits_nothing (d : Display) {p : Nat → Nat → Prop} (hp : ∀ r c, ¬ p r c) : d.Blits (d, false) p := by
  simp [Display.Blits, hp, xor_def]

/-- Two blits of pictures that do not overlap are one blit of both, with the collision of either. -/
theorem Display.Blits.trans {d : Display} {one two : Display × Bool} {p q : Nat → Nat → Prop} (h1 : d.Blits one p)
    (h2 : one.1.Blits two q) (hpq : ∀ r c, p r c → ¬ q r c) : d.Blits (two.1, one.2 || two.2) fun r c => p r c ∨ q r c := by
  obtain ⟨hpix1, hhit1⟩ := h1
  obtain ⟨hpix2, hhit2⟩ := h2
  constructor
  · intro r c
    rw [hpix2, hpix1]
    have := hpq r c
    simp only [xor_def]; tauto
  · -- The second blit meets the pixels of `d`, for the first did not touch those of `q`.
    have hkept : ∀ r c, one.1.pix r c = true ∧ q r c ↔ d.pix r c = true ∧ q r c := fun r c => by
      have := hpq r c
      rw [hpix1, xor_def]; tauto
    simp only [Bool.or_eq_true, hhit1, hhit2, hkept, and_or_left, exists_or]

/-- One sprite byte. -/
theorem Display.blits_row {d : Display} (h : d.wf = true) (x0 y0 : Nat) (b : Byte) :
    d.Blits (d.blitBits (y0 % d.height) x0 0 (spriteBits b)) fun r c =>
      y0 % heightOf d.hires = r ∧ RowBit (widthOf d.hires) x0 (spriteBits b) c := by
  have hlen : (spriteBits b).length ≤ widthOf d.hires := by cases d.hires <;> simp [spriteBits, widthOf]
  obtain ⟨hpix, hhit⟩ := Display.blitBits_spec (spriteBits b) h (Nat.mod_lt y0 (heightOf_pos d.hires)) x0 0 hlen
  have hblit : d.Blits (d.blitBits (y0 % d.height) x0 0 (spriteBits b)) fun r c =>
      r = y0 % heightOf d.hires ∧ RowBit (widthOf d.hires) x0 (spriteBits b) c :=
    ⟨hpix, hhit.trans ⟨fun ⟨c, hset, hbit⟩ => ⟨_, c, hset, rfl, hbit⟩, fun ⟨_, c, hset, hrow, hbit⟩ => ⟨c, hrow ▸ hset, hbit⟩⟩⟩
  exact hblit.congr fun r c => and_congr_left' eq_comm

/-- The standard blit, at most as tall as the grid. -/
theorem Display.blits_draw {d : Display} (h : d.wf = true) (x0 y0 : Nat) (bytes : List Byte)
    (hlen : bytes.length ≤ heightOf d.hires) :
    d.Blits (d.draw x0 y0 bytes) (SpriteBit (widthOf d.hires) (heightOf d.hires) x0 y0 bytes) := by
  induction bytes generalizing d y0 with
  | nil => exact d.blits_nothing (not_spriteBit_nil _ _ x0 y0)
  | cons b rest ih =>
    rw [List.length_cons] at hlen
    have hrest := ih (Display.blitBits_wf h (y0 % d.height) x0 0 (spriteBits b)) (y0 + 1) (by rw [Display.blitBits_hires]; omega)
    rw [Display.blitBits_hires] at hrest
    refine ((Display.blits_row h x0 y0 b).trans hrest ?_).congr (spriteBit_cons _ _ x0 y0 b rest)
    rintro r c ⟨rfl, -⟩
    exact not_spriteBit_firstRow hlen c

/-- The standard blit of one byte. -/
theorem Display.blits_drawByte {d : Display} (h : d.wf = true) (x0 y0 : Nat) (b : Byte) :
    d.Blits (d.draw x0 y0 [b]) fun r c => y0 % heightOf d.hires = r ∧ RowBit (widthOf d.hires) x0 (spriteBits b) c :=
  (Display.blits_draw h x0 y0 [b] (heightOf_pos _)).congr fun r c => by
    rw [spriteBit_cons, or_iff_left (not_spriteBit_nil _ _ _ _ r c)]

/-- The right byte of a row pair: drawn in hi-res only. -/
theorem Display.blits_rightByte {d : Display} (h : d.wf = true) (x0 y0 : Nat) (b : Byte) :
    d.Blits (if d.hires then d.draw (x0 + 8) y0 [b] else (d, false)) fun r c =>
      y0 % heightOf d.hires = r ∧ d.hires = true ∧ RowBit (widthOf d.hires) (x0 + 8) (spriteBits b) c := by
  split
  · next hh => simpa [hh] using Display.blits_drawByte h (x0 + 8) y0 b
  · next hh => exact d.blits_nothing (by simp [hh])

/-- One row pair of the 16x16 blit. -/
def Display.drawPair (d : Display) (x0 y0 : Nat) (left right : Byte) : Display × Bool :=
  let one := d.draw x0 y0 [left]
  let two := if d.hires then one.1.draw (x0 + 8) y0 [right] else (one.1, false)
  (two.1, one.2 || two.2)

theorem Display.schipDraw_cons (d : Display) (x0 y0 : Nat) (left right : Byte) (rest : List Byte) :
    d.schipDraw x0 y0 (left :: right :: rest) =
      (((d.drawPair x0 y0 left right).1.schipDraw x0 (y0 + 1) rest).1,
        (d.drawPair x0 y0 left right).2 || ((d.drawPair x0 y0 left right).1.schipDraw x0 (y0 + 1) rest).2) := rfl

@[simp] theorem Display.drawPair_hires (d : Display) (x0 y0 : Nat) (left right : Byte) :
    (d.drawPair x0 y0 left right).1.hires = d.hires := by
  unfold Display.drawPair; split <;> simp

theorem Display.drawPair_wf {d : Display} (h : d.wf = true) (x0 y0 : Nat) (left right : Byte) :
    (d.drawPair x0 y0 left right).1.wf = true := by
  simp only [Display.drawPair]
  split
  · exact Display.draw_wf (Display.draw_wf h _ _ _) _ _ _
  · exact Display.draw_wf h _ _ _

theorem Display.blits_drawPair {d : Display} (h : d.wf = true) (x0 y0 : Nat) (left right : Byte) :
    d.Blits (d.drawPair x0 y0 left right) fun r c =>
      y0 % heightOf d.hires = r ∧ (RowBit (widthOf d.hires) x0 (spriteBits left) c ∨
        (d.hires = true ∧ RowBit (widthOf d.hires) (x0 + 8) (spriteBits right) c)) := by
  have hright := Display.blits_rightByte (Display.draw_wf h x0 y0 [left]) x0 y0 right
  rw [Display.draw_hires] at hright
  refine ((Display.blits_drawByte h x0 y0 left).trans hright ?_).congr fun r c => and_or_left
  rintro r c ⟨-, hleft⟩ ⟨-, hh, hbit⟩
  rw [hh] at hleft hbit
  exact not_rowBit_right_of_left hleft hbit

/-- The 16x16 blit, at most as many row pairs as the grid has rows. -/
theorem Display.blits_schipDraw {d : Display} (h : d.wf = true) (x0 y0 : Nat) (bytes : List Byte)
    (hlen : bytes.length / 2 ≤ heightOf d.hires) : d.Blits (d.schipDraw x0 y0 bytes) (PairBit d.hires x0 y0 bytes) := by
  match bytes with
  | [] | [_] => exact d.blits_nothing (by rintro r c ⟨k, hk, -⟩; simp at hk)
  | left :: right :: rest =>
    have hlt : rest.length / 2 < heightOf d.hires := by simp only [List.length_cons] at hlen; omega
    have hrest := Display.blits_schipDraw (Display.drawPair_wf h x0 y0 left right) x0 (y0 + 1) rest
      (by rw [Display.drawPair_hires]; omega)
    rw [Display.drawPair_hires] at hrest
    rw [Display.schipDraw_cons]
    refine ((Display.blits_drawPair h x0 y0 left right).trans hrest ?_).congr (pairBit_cons _ x0 y0 left right rest)
    rintro r c ⟨rfl, -⟩
    exact not_pairBit_firstRow hlt c

theorem Display.inGrid_of_pix {d : Display} (h : d.wf = true) {r c : Nat} (hp : d.pix r c = true) :
    r < d.height ∧ c < d.width := by
  by_contra hout
  have hfalse := Display.pix_outside h (show heightOf d.hires ≤ r ∨ widthOf d.hires ≤ c by
    simp only [Display.height, Display.width] at hout; omega)
  simp [hp] at hfalse

/-- A blit as the statements say it: by the pixels of the grid. -/
theorem Display.Blits.inGrid {d : Display} {out : Display × Bool} {p : Nat → Nat → Prop} (hb : d.Blits out p) (h : d.wf = true) :
    (∀ r < d.height, ∀ c < d.width, (out.1.pix r c = true ↔ Xor (d.pix r c = true) (p r c))) ∧
    (out.2 = true ↔ ∃ r < d.height, ∃ c < d.width, d.pix r c = true ∧ p r c) := by
  obtain ⟨hpix, hhit⟩ := hb
  refine ⟨fun r _ c _ => hpix r c, hhit.trans ⟨?_, ?_⟩⟩
  · rintro ⟨r, c, hset, hp⟩
    obtain ⟨hr, hc⟩ := Display.inGrid_of_pix h hset
    exact ⟨r, hr, c, hc, hset, hp⟩
  · rintro ⟨r, -, c, -, hmeet⟩
    exact ⟨r, c, hmeet⟩

theorem sixteen_le_heightOf (hires : Bool) : 16 ≤ heightOf hires := by cases hires <;> decide

/-- Settles O24: the rows of at most 16 bytes do not overlap, so they are blitted one after the other as one picture. -/
theorem drawXorsSpriteBits : Obligations.DrawXorsSpriteBits := by
  intro d x0 y0 bytes h hlen
  exact ⟨Display.draw_hires .., Display.draw_wf h .., (Display.blits_draw h x0 y0 bytes (hlen.trans (sixteen_le_heightOf _))).inGrid h⟩

/-- Settles O25: neither do the sixteen row pairs, nor the two bytes of a pair. -/
theorem bigDrawXorsSpriteBits : Obligations.BigDrawXorsSpriteBits := by
  intro d x0 y0 bytes h hlen
  have hfits : bytes.length / 2 ≤ heightOf d.hires := by rw [hlen]; exact sixteen_le_heightOf _
  exact ⟨Display.schipDraw_hires .., Display.schipDraw_wf h ..,
    ((Display.blits_schipDraw h x0 y0 bytes hfits).congr (bigSpriteBit_iff_pairBit hlen d.hires x0 y0)).inGrid h⟩

/-- Settles O26: the second blit XORs the same picture in again, and meets it where the first one set a pixel. -/
theorem drawTwiceRestores : Obligations.DrawTwiceRestores := by
  intro d x0 y0 bytes h hlen
  obtain ⟨hmode, hwf, hpix, -⟩ := drawXorsSpriteBits d x0 y0 bytes h hlen
  obtain ⟨hmode', hwf', hpix', hhit'⟩ := drawXorsSpriteBits (d.draw x0 y0 bytes).1 x0 y0 bytes hwf hlen
  generalize (d.draw x0 y0 bytes).1 = e at *
  simp only [Display.width, Display.height, hmode] at hpix hpix' hhit' ⊢
  constructor
  · refine Display.ext_pix hwf' h (hmode'.trans hmode) fun r hr c hc => ?_
    rw [hmode', hmode] at hr hc
    rw [Bool.eq_iff_iff, hpix' r hr c hc, hpix r hr c hc]
    simp only [xor_def]; tauto
  · rw [hhit']
    refine exists_congr fun r => and_congr_right fun hr => exists_congr fun c => and_congr_right fun hc => ?_
    rw [hpix r hr c hc, xor_def, ← Bool.not_eq_true]
    tauto

end Sys2Proof.Machine
end

section
/-! PROOFS. DRW and DRW16 (40_display_engine.md R136, R137): a draw of the bytes at `I`, or the range fault (20_memory.md R64). -/

open Sys2Proof

namespace Sys2Proof.Machine

theorem rangeFault_eq_none {s : State} {n : Nat} (h : s.i.toNat + n - 1 ≤ 4095) : rangeFault s n = none := if_neg (by omega)

theorem rangeFault_eq_some {s : State} {n : Nat} (h : 4095 < s.i.toNat + n - 1) :
    rangeFault s n = some (.memoryOutOfRange s.i.toNat) := if_pos h

/-- What a completed draw changes: the display, VF and `PC`. -/
theorem exec_drawn {i : Instr} {s : State} {blit : Display × Bool} (h : exec i s = .next (s.drawn blit)) :
    ∃ t, exec i s = .next t ∧ t = { s with v := t.v, display := t.display, pc := s.pc + 2 } ∧ t.display = blit.1 ∧
      t.vf = (if blit.2 then 1 else 0) ∧ ∀ r, r ≠ 15 → t.reg r = s.reg r :=
  ⟨_, h, rfl, s.drawn_display blit, s.reg_drawn blit 15, fun r hr => (s.reg_drawn blit r).trans (if_neg hr)⟩

/-- Settles O27: each of the two instructions is its draw in range, and the record of the range fault out of it. -/
theorem drawInstructions : Obligations.DrawInstructions := by
  intro s x y z _
  refine ⟨fun h => ?drw, fun h => ?drwFault, fun h => ?drw16, fun h => ?drw16Fault⟩
  case drw => exact exec_drawn (exec_of_noFault (rangeFault_eq_none h))
  case drwFault => exact exec_of_fault (rangeFault_eq_some h)
  case drw16 => exact exec_drawn (exec_of_noFault (rangeFault_eq_none (n := 32) h))
  case drw16Fault => exact exec_of_fault (rangeFault_eq_some (n := 32) h)

end Sys2Proof.Machine
end

section
/-! PROOFS. Control transfer and host signals (41_control_flow.md R151 to R161, 60_exceptions.md R250). -/

open Sys2Proof

namespace Sys2Proof.Machine

section
variable {s : State} {i : Instr}

/-! The stack (10_state.md R28). -/

theorem State.pushed_sp (a : Word) (h : s.sp.val < 16) : (s.pushed a).sp.val = s.sp.val + 1 := Nat.min_eq_left h

/-- A push writes the slot at the depth and no other. -/
theorem State.pushed_stack (s : State) (a : Word) (k : Fin 16) :
    (s.pushed a).stack[k] = if k.val = s.sp.val then a else s.stack[k] := by
  simp [State.pushed, Vector.getElem_setIfInBounds, eq_comm]

/-- A pop of depth k + 1 takes slot k. -/
theorem stackTop_of_sp {k : Fin 16} (h : s.sp.val = k.val + 1) : stackTop s = s.stack[k] := by
  simp [stackTop_eq, h]

theorem ownFault_call (nnn : Addr) (h : s.sp.val < 16) : ownFault (.call nnn) s = none :=
  if_neg (Fin.ne_of_val_ne h.ne)

theorem ownFault_ret (h : 0 < s.sp.val) : ownFault .ret s = none := if_neg (Fin.ne_of_val_ne h.ne')

/-! The skips (41_control_flow.md R156 to R159). -/

/-- What a completed skip changes: `PC`, by 4 or 2. -/
theorem exec_skipped {c : Bool} (h : exec i s = .next (s.skipIf c)) :
    ∃ t, exec i s = .next t ∧ OnlyPc s t ∧ t.pc = s.pc + if c then 4 else 2 :=
  ⟨_, h, s.skipIf_frame c, by cases c <;> rfl⟩

/-! The host signals (41_control_flow.md R152, R153). -/

theorem exec_signalInstr (h : HostSignal) (s : State) : exec (signalInstr h) s = .next { s with signal := some h } := by
  cases h <;> rfl

theorem lastOutcome_signal (h : HostSignal) (hhalt : s.halt = none) :
    lastOutcome { s with signal := some h } = .signal h := by
  simp only [lastOutcome, hhalt]

/-- A step whose word at `PC` is a signal's instruction records the signal, whatever was recorded before. -/
theorem step_signalInstr {h : HostSignal} (hready : ReadyToStep s) (hpc : s.pc.toNat ≤ 4094)
    (hd : decodeWord s.params.freezeWord (wordAtPc s) = .ok (signalInstr h)) :
    step s = .next { s with signal := some h } := by
  obtain ⟨hhalt, hinputs, hbatch⟩ := hready
  obtain ⟨-, hstep⟩ := stepRunsDecodedInstruction s _ hhalt hpc hd
  exact (hstep s (.inl ⟨hinputs, rfl⟩) hbatch).trans (exec_signalInstr h _)

end

/-- Settles O28: neither the widened address nor its sum with a byte reaches 65536. -/
theorem jumpTargets : Obligations.JumpTargets := by
  intro s nnn
  refine ⟨⟨_, rfl, rfl, ?jp⟩, ⟨_, rfl, rfl, ?jpV0⟩⟩
  case jp => exact BitVec.toNat_setWidth_of_le (by decide)
  case jpV0 =>
    rw [State.jump_pc]
    bv_omega

/-- Settles O29: below depth 16 CALL has its effect, a push and a jump; at depth 16 it records its own fault. -/
theorem callPushesOwnAddress : Obligations.CallPushesOwnAddress := by
  intro s nnn
  refine ⟨fun h => ?pushes, fun h => exec_of_fault (if_pos (Fin.ext h))⟩
  exact ⟨_, exec_of_noFault (ownFault_call nnn h), rfl, BitVec.toNat_setWidth_of_le (by decide), State.pushed_sp s.pc h,
    s.pushed_stack s.pc⟩

/-- Settles O30: above depth 0 RET has its effect, a pop and a jump; at depth 0 it records its own fault. -/
theorem retPopsAddressPlus2 : Obligations.RetPopsAddressPlus2 := by
  intro fw s
  refine ⟨rfl, fun k h => ?pops, fun h => exec_of_fault (if_pos h)⟩
  have hpc : (effect .ret s).pc = s.stack[k] + 2 := congrArg (· + 2) (stackTop_of_sp h)
  exact ⟨_, exec_of_noFault (ownFault_ret (by omega)), rfl, Nat.sub_eq_of_eq_add h, by rw [hpc, BitVec.toNat_add]; rfl⟩

/-- Settles O31: the RET finds the depth one above the CALL's, so it pops the slot the CALL filled with its own address. -/
theorem callThenRetResumes : Obligations.CallThenRetResumes := by
  intro s nnn h
  obtain ⟨hcall, -⟩ := callPushesOwnAddress s nnn
  obtain ⟨t, hexec, ht, -, hsp, hstack⟩ := hcall h
  obtain ⟨-, hret, -⟩ := retPopsAddressPlus2 none t
  obtain ⟨u, hexec', hu, hsp', hpc⟩ := hret ⟨s.sp.val, h⟩ hsp
  have hspEq : u.sp = s.sp := Fin.ext hsp'
  have hstackEq : u.stack = t.stack := by rw [hu]
  refine ⟨t, u, hexec, hexec', BitVec.eq_of_toNat_eq ?pc, hspEq, ?frame, fun k hk => ?slots⟩
  case pc => rw [hpc, hstack, if_pos rfl, BitVec.toNat_add]; rfl
  case frame => rw [hu, ht, hspEq]
  case slots => rw [hstackEq, hstack, if_neg hk]

/-- Settles O32: each of the four instructions is a skip on the comparison of its operands. -/
theorem skipsAddFourOrTwo : Obligations.SkipsAddFourOrTwo := by
  intro s x y kk
  simp only [BitVec.toNat_inj]
  refine ⟨?seImm, ?sneImm, ?seReg, ?sneReg⟩
  case seImm => simpa using exec_skipped (i := .seImm x kk) (s := s) rfl
  case sneImm => simpa using exec_skipped (i := .sneImm x kk) (s := s) rfl
  case seReg => simpa using exec_skipped (i := .seReg x y) (s := s) rfl
  case sneReg => simpa using exec_skipped (i := .sneReg x y) (s := s) rfl

/-- Settles O33: the record of the signal leaves the word at `PC` alone, so the next step is the same one. -/
theorem hostSignalsRepeat : Obligations.HostSignalsRepeat := by
  intro s hhalt
  refine ⟨⟨rfl, lastOutcome_signal .exit hhalt⟩, ⟨rfl, lastOutcome_signal .freeze hhalt⟩, fun h hready hpc hd => ?repeats⟩
  have hagain : step { s with signal := some h } = .next { s with signal := some h } :=
    step_signalInstr (s := { s with signal := some h }) hready hpc hd
  exact ⟨_, step_signalInstr hready hpc hd, lastOutcome_signal h hhalt, rfl, hagain⟩

end Sys2Proof.Machine
end

section
/-! PROOFS. Register loads and the arithmetic/logic unit (42_load_alu.md R171 to R184): each instruction is one register write, or the
result and flag writes of R171, and goes on by 2. -/

open Sys2Proof

namespace Sys2Proof.Machine

section
variable {s : State} {x : Nibble}

theorem State.reg_setReg_other {r : Nibble} (h : r ≠ x) (b : Byte) : (s.setReg x b).reg r = s.reg r :=
  (s.reg_setReg x r b).trans (if_neg h)

/-! The result and the flag after the two writes of R171. -/

theorem State.reg_writeResultFlag_same (h : x ≠ 15) (result flag : Byte) : (s.writeResultFlag x result flag).reg x = result := by
  simp only [State.reg_writeResultFlag, if_neg h, if_true, ite_self]

theorem State.vf_writeResultFlag (h : x ≠ 15) (result flag : Byte) : (s.writeResultFlag x result flag).vf = flag := by
  simp only [State.vf, State.reg_writeResultFlag, if_neg h.symm, if_true, ite_self]

/-- With VF as the destination the later of the two writes is left. -/
theorem State.vf_writeResultFlag_15 (result flag : Byte) :
    (s.writeResultFlag 15 result flag).vf = if s.params.vfWriteLast then flag else result := by
  simp only [State.vf, State.reg_writeResultFlag, if_true]

theorem State.onlyRegsAndPc_writeResultFlag (s : State) (x : Nibble) (result flag : Byte) :
    OnlyRegsAndPc s (s.writeResultFlag x result flag).next := by
  rw [OnlyRegsAndPc, State.writeResultFlag_frame]
  rfl

/-- What an instruction that ends in the two writes of R171 changes: the registers as R171 says, and `PC`. -/
theorem exec_resultAndFlag {i : Instr} {result flag : Byte} {r f : Nat} (h : exec i s = .next (s.writeResultFlag x result flag).next)
    (hr : result.toNat = r) (hf : flag.toNat = f) :
    ∃ t, exec i s = .next t ∧ OnlyRegsAndPc s t ∧ t.pc = s.pc + 2 ∧ WritesResultAndFlag s t x r f := by
  subst hr hf
  refine ⟨_, h, s.onlyRegsAndPc_writeResultFlag x result flag, by simp, fun hx => ⟨?result, ?flag⟩, ?vf, ?others⟩
  case result => exact congrArg BitVec.toNat (State.reg_writeResultFlag_same hx result flag)
  case flag => exact congrArg BitVec.toNat (State.vf_writeResultFlag hx result flag)
  case vf =>
    rintro rfl
    rw [State.next_vf, State.vf_writeResultFlag_15, apply_ite BitVec.toNat]
  case others => exact fun q hx hf => State.reg_writeResultFlag_other hx hf result flag

/-! The results and the flag values as numbers. -/

theorem byte_sub_toNat (a b : Byte) : (a - b).toNat = (a.toNat + 256 - b.toNat) % 256 := by
  rw [BitVec.toNat_sub]; omega

theorem byte_shiftLeft_one_toNat (b : Byte) : (b <<< 1).toNat = 2 * b.toNat % 256 := by
  rw [BitVec.toNat_shiftLeft, Nat.shiftLeft_eq, Nat.mul_comm]

theorem flagByte_decide_toNat (p : Prop) [Decidable p] : (flagByte (decide p)).toNat = if p then 1 else 0 := by
  by_cases h : p <;> simp [flagByte, h]

theorem addFlag_toNat (a b : Byte) : (addFlag a b).toNat = if a.toNat + b.toNat > 255 then 1 else 0 := flagByte_decide_toNat _

theorem subFlag_toNat (a b : Byte) : (subFlag a b).toNat = if a.toNat > b.toNat then 1 else 0 := flagByte_decide_toNat _

theorem shrFlag_toNat (b : Byte) : (shrFlag b).toNat = b.toNat % 2 := Nat.and_one_is_mod b.toNat

/-- Bit 7 of a byte is set from 128 on. -/
theorem shlFlag_toNat (b : Byte) : (shlFlag b).toNat = if b.toNat ≥ 128 then 128 else 0 := by
  have hbit : (shlFlag b).toNat = (b.toNat.testBit 7).toNat * 128 := Nat.and_two_pow b.toNat 7
  have hset : b.toNat.testBit 7 = decide (b.toNat ≥ 128) := by
    rw [Nat.testBit_eq_decide_div_mod_eq]
    exact decide_eq_decide.2 (by omega)
  rw [hbit, hset]
  by_cases h : b.toNat ≥ 128 <;> simp [h]

end

/-- Settles O34: one write, of the constant. -/
theorem ldImmSetsRegister : Obligations.LdImmSetsRegister := by
  intro fw s x kk
  exact ⟨decodeWord_encode (i := .ldImm x kk) rfl, _, rfl, rfl, rfl, s.reg_setReg_same x kk, fun r hr => State.reg_setReg_other hr kk⟩

/-- Settles O35: one write, of the sum of two bytes. -/
theorem addImmWraps : Obligations.AddImmWraps := by
  intro s x kk
  refine ⟨_, rfl, rfl, rfl, ?sum, fun r hr => State.reg_setReg_other hr _⟩
  rw [State.next_reg, State.reg_setReg_same, BitVec.toNat_add]

/-- Settles O36: one write, of the copied byte or of the bitwise combination. -/
theorem movesAndLogic : Obligations.MovesAndLogic := by
  intro s x y
  refine ⟨⟨_, rfl, rfl, rfl, ?ldReg, fun r hr => State.reg_setReg_other hr _⟩,
    ⟨_, rfl, rfl, rfl, fun b _ => ?or, fun r hr => State.reg_setReg_other hr _⟩,
    ⟨_, rfl, rfl, rfl, fun b _ => ?and, fun r hr => State.reg_setReg_other hr _⟩,
    ⟨_, rfl, rfl, rfl, fun b _ => ?xor, fun r hr => State.reg_setReg_other hr _⟩⟩
  all_goals rw [State.next_reg, State.reg_setReg_same]
  case or => exact BitVec.getLsbD_or
  case and => exact BitVec.getLsbD_and
  case xor => exact BitVec.getLsbD_xor

/-- Settles O37: the two writes of R171, of the sum and the carry. -/
theorem addRegWrapsAndCarries : Obligations.AddRegWrapsAndCarries := by
  intro fw s x y
  exact ⟨decodeWord_encode (i := .addReg x y) rfl, exec_resultAndFlag rfl (BitVec.toNat_add ..) (addFlag_toNat ..)⟩

/-- Settles O38: the two writes of R171, of the difference and the strict comparison, with the operands in either order. -/
theorem subtractFlagIsStrict : Obligations.SubtractFlagIsStrict := by
  intro fw s x y
  exact ⟨decodeWord_encode (i := .sub x y) rfl, decodeWord_encode (i := .subn x y) rfl,
    exec_resultAndFlag rfl (byte_sub_toNat ..) (subFlag_toNat ..), exec_resultAndFlag rfl (byte_sub_toNat ..) (subFlag_toNat ..)⟩

/-- Settles O39: the two writes of R171, of the source shifted right and its bit 0. -/
theorem shrHalvesAndKeepsLowBit : Obligations.ShrHalvesAndKeepsLowBit := by
  intro fw s x y
  have hhalf : (s.shiftSource x y >>> 1).toNat = (s.shiftSource x y).toNat / 2 := Nat.shiftRight_one _
  exact ⟨decodeWord_encode (i := .shr x y) rfl, exec_resultAndFlag rfl hhalf (shrFlag_toNat (s.shiftSource x y))⟩

/-- Settles O40: the two writes of R171, of the source shifted left and its bit 7 in place. -/
theorem shlDoublesAndFlags128 : Obligations.ShlDoublesAndFlags128 := by
  intro fw s x y
  exact ⟨decodeWord_encode (i := .shl x y) rfl,
    exec_resultAndFlag rfl (byte_shiftLeft_one_toNat (s.shiftSource x y)) (shlFlag_toNat (s.shiftSource x y))⟩

end Sys2Proof.Machine
end

section
/-! PROOFS. Address register, memory transfer and flag bank (43_index_memory.md R200 to R210, 20_memory.md R62 to R65). -/

open Sys2Proof

namespace Sys2Proof.Machine

section
variable {s : State} {i : Instr}

/-! The bytes a transfer carries, by the register or the flag cell they belong to. -/

/-- Of the registers `V[0]` to `V[x]`, the byte at place r is `V[r]`. -/
theorem State.firstRegs_getD (s : State) (x r : Nibble) (d : Byte) :
    (s.firstRegs x).getD r.toNat d = if r.toNat ≤ x.toNat then s.reg r else d := by
  have hr := r.isLt
  by_cases h : r.toNat ≤ x.toNat
  · simp [State.firstRegs, State.reg, h, hr]
  · rw [if_neg h, List.getD_eq_default _ _ (by rw [State.firstRegs_length]; omega)]

/-- Of the flag cells `FB[0]` to `FB[x]`, the byte at place k is `FB[k]`. -/
theorem State.firstFlags_getD {x : Nibble} {k : Fin 8} (h : k.val ≤ x.toNat) (d : Byte) :
    (s.firstFlags x).getD k.val d = s.fb[k] := by
  simp [State.firstFlags, Nat.lt_succ_of_le h]

/-- The byte at place k of the bytes at `I` stands at `I + k`. -/
theorem bytesAtI_getD {n k : Nat} (h : k < n) (d : Byte) : (bytesAtI s n).getD k d = s.mem.read (s.i.toNat + k) := by
  simp [bytesAtI, h]

/-- Flag cells covered by the list take its bytes, the others keep their values. -/
theorem State.saveFlags_fb (s : State) (bytes : List Byte) (k : Fin 8) :
    (s.saveFlags bytes).fb[k] = bytes.getD k.val s.fb[k] := by
  simp [State.saveFlags]

/-- A flag cell's number as a register's. -/
theorem toNat_ofNat_flagIndex (k : Fin 8) : (BitVec.ofNat 4 k.val).toNat = k.val :=
  (BitVec.toNat_ofNat ..).trans (Nat.mod_eq_of_lt (by omega))

/-! How the instructions of this family end. -/

/-- What a completed load of `I` changes: `I` and `PC`. -/
theorem exec_setI {a : Word} {n : Nat} (h : exec i s = .next (s.setI a).next) (ha : a.toNat = n) :
    ∃ t, exec i s = .next t ∧ t = { s with i := t.i, pc := s.pc + 2 } ∧ t.i.toNat = n :=
  ⟨_, h, rfl, ha⟩

/-- What a completed store changes: the bytes at `I` on, as many as it stores, and `PC`. -/
theorem exec_stored {bytes : List Byte} (h : exec i s = .next (s.stored (s.mem.writeBytes s.address bytes)))
    (hm : s.mem.wf = true) (hfit : s.i.toNat + bytes.length ≤ 4096) :
    ∃ t, exec i s = .next t ∧ t = { s with mem := t.mem, pc := s.pc + 2 } ∧ t.mem.wf = true ∧
      (∀ k < bytes.length, t.mem.read (s.i.toNat + k) = bytes.getD k 0) ∧
      ∀ a, ¬ (s.i.toNat ≤ a ∧ a < s.i.toNat + bytes.length) → t.mem.read a = s.mem.read a := by
  refine ⟨_, h, rfl, Memory.writeBytes_wf hm bytes hfit, fun k hk => ?inside,
    fun a ha => Memory.read_writeBytes_outside bytes s.mem ha⟩
  exact (Memory.read_writeBytes hm bytes hfit _).trans (by rw [if_pos (by omega), Nat.add_sub_cancel_left])

/-- What a completed load of registers changes: the registers the list covers, and `PC`. -/
theorem exec_loadRegs {bytes : List Byte} (h : exec i s = .next (s.loadRegs bytes).next) :
    ∃ t, exec i s = .next t ∧ OnlyRegsAndPc s t ∧ t.pc = s.pc + 2 ∧ ∀ r, t.reg r = bytes.getD r.toNat (s.reg r) :=
  ⟨_, h, rfl, by simp, s.reg_loadRegs bytes⟩

/-! The digits of a byte (43_index_memory.md R204), and the glyph addresses (R202, R203). -/

theorem decimalDigits_toNat (b : Byte) :
    (decimalDigits b).map BitVec.toNat = [b.toNat / 100, b.toNat / 10 % 10, b.toNat % 10] := by
  have hb := b.isLt
  simp [decimalDigits]; omega

theorem smallGlyph_toNat (b : Byte) : (smallGlyph b).toNat = b.toNat * 5 := by
  unfold smallGlyph; bv_omega

theorem largeGlyph_toNat (b : Byte) : (largeGlyph b).toNat = 80 + b.toNat * 10 := by
  unfold largeGlyph; bv_omega

end

/-- Settles O43: in range the registers are stored, byte r of them from `V[r]`; out of range LD [I], Vx records its own fault. -/
theorem ldMemStoresRegisters : Obligations.LdMemStoresRegisters := by
  intro s x
  refine ⟨fun hm hfit => ?stores, fun h => exec_of_fault (rangeFault_eq_some (by omega))⟩
  have hexec : exec (.ldMemVx x) s = .next (effect (.ldMemVx x) s) := exec_of_noFault (rangeFault_eq_none (by omega))
  obtain ⟨t, ht, hframe, hwf, hin, hout⟩ := exec_stored hexec hm (by rw [State.firstRegs_length]; omega)
  rw [State.firstRegs_length] at hin hout
  refine ⟨t, ht, hframe, hwf, fun r hr => ?inside, fun a ha => hout a (by omega)⟩
  rw [hin r.toNat (by omega), State.firstRegs_getD, if_pos hr]

/-- Settles O44: in range the bytes at `I` are loaded, byte r of them into `V[r]`; out of range LD Vx, [I] records its own fault. -/
theorem ldVxMemLoadsRegisters : Obligations.LdVxMemLoadsRegisters := by
  intro s x
  refine ⟨fun hfit => ?loads, fun h => exec_of_fault (rangeFault_eq_some (by omega))⟩
  have hexec : exec (.ldVxMem x) s = .next (effect (.ldVxMem x) s) := exec_of_noFault (rangeFault_eq_none (by omega))
  obtain ⟨t, ht, hframe, hpc, hreg⟩ := exec_loadRegs hexec
  refine ⟨t, ht, hframe, hpc, fun r => ?_⟩
  rw [hreg r]
  split
  case isTrue h => exact bytesAtI_getD (by omega) _
  case isFalse h => exact List.getD_eq_default _ _ (by rw [bytesAtI_length]; omega)

/-- Settles O45: the load reads at `I + r` the byte that the store left there from `V[r]`. -/
theorem storeThenLoadRegisters : Obligations.StoreThenLoadRegisters := by
  intro s t u x hm hfit hstore hmem hi
  obtain ⟨hstores, -⟩ := ldMemStoresRegisters s x
  obtain ⟨t', hstore', -, -, hread, -⟩ := hstores hm hfit
  obtain ⟨hloads, -⟩ := ldVxMemLoadsRegisters u x
  obtain ⟨w, hload, -, -, hreg⟩ := hloads (by rwa [hi])
  obtain rfl : t' = t := Host.Outcome.next.inj (hstore'.symm.trans hstore)
  exact ⟨w, hload, fun r hr => by rw [hreg, if_pos hr, hmem, hi, hread r hr]⟩

/-- Settles O46: for x at most 7 the registers are saved, byte k of them into `FB[k]`; for a larger x LD R records its own fault. -/
theorem ldRSavesFlagBank : Obligations.LdRSavesFlagBank := by
  intro fw s x
  refine ⟨decodeWord_encode (i := .ldR x) rfl, fun hx => ⟨_, exec_of_noFault (if_neg (by omega)), rfl, fun k => ?saved⟩,
    fun hx => exec_of_fault (if_pos hx)⟩
  have hbyte := s.firstRegs_getD x (BitVec.ofNat 4 k.val) s.fb[k]
  rw [toNat_ofNat_flagIndex] at hbyte
  exact (s.saveFlags_fb _ k).trans hbyte

/-- Settles O47: for x at most 7 the flag cells are loaded, `FB[k]` into `V[k]`; for a larger x LD Vx, R records its own fault. -/
theorem ldVxRRestoresFlagBank : Obligations.LdVxRRestoresFlagBank := by
  intro fw s x
  refine ⟨decodeWord_encode (i := .ldVxR x) rfl, fun hx => ?restores, fun hx => exec_of_fault (if_pos hx)⟩
  have hexec : exec (.ldVxR x) s = .next (effect (.ldVxR x) s) := exec_of_noFault (if_neg (by omega))
  obtain ⟨t, ht, hframe, hpc, hreg⟩ := exec_loadRegs hexec
  refine ⟨t, ht, hframe, hpc, fun k hk => ?restored, fun r hr => ?kept⟩
  case restored => rw [hreg, toNat_ofNat_flagIndex, State.firstFlags_getD hk]
  case kept => rw [hreg, List.getD_eq_default _ _ ((s.firstFlags_length_le x).trans hr)]

/-- Settles O41: each of the four puts one word into `I`; only ADD I can reach 65536. -/
theorem addressRegisterLoads : Obligations.AddressRegisterLoads := by
  intro s nnn x
  refine ⟨exec_setI rfl (BitVec.toNat_setWidth_of_le (by decide)), exec_setI rfl ?addI, exec_setI rfl (smallGlyph_toNat _),
    exec_setI rfl (largeGlyph_toNat _)⟩
  rw [BitVec.toNat_add, BitVec.toNat_setWidth_of_le (by decide)]

/-- Settles O42: in range the three digits are stored; out of range LD B records its own fault. -/
theorem ldBStoresDecimalDigits : Obligations.LdBStoresDecimalDigits := by
  intro fw s x
  refine ⟨decodeWord_encode (i := .ldB x) rfl, fun hm hfit => ?stores, fun h => exec_of_fault (rangeFault_eq_some (by omega))⟩
  have hexec : exec (.ldB x) s = .next (effect (.ldB x) s) := exec_of_noFault (rangeFault_eq_none (by omega))
  obtain ⟨t, ht, hframe, hwf, hin, hout⟩ := exec_stored hexec hm (by rw [decimalDigits_length]; omega)
  rw [decimalDigits_length] at hin hout
  have hdigit (k : Nat) (hk : k < 3) :
      (t.mem.read (s.i.toNat + k)).toNat = ((decimalDigits (s.reg x)).map BitVec.toNat).getD k 0 := by
    rw [hin k hk]
    exact (List.getD_map _ 0#8 BitVec.toNat).symm
  rw [decimalDigits_toNat] at hdigit
  exact ⟨t, ht, hframe, hwf, hdigit 0 (by decide), hdigit 1 (by decide), hdigit 2 (by decide), fun a ha => hout a (by omega)⟩

end Sys2Proof.Machine
end

section
/-! PROOFS. Keyboard, timers and random (44_keyboard_timers_random.md R220 to R232, 10_state.md R35, R38). -/

open Sys2Proof

namespace Sys2Proof.Machine

section
variable {s : State} {x : Nibble}

/-! The key query (44_keyboard_timers_random.md R220, R221). -/

theorem keyOf_eq (h : (s.reg x).toNat < 16) : keyOf s x = s.keys[(s.reg x).toNat] := by
  simp [keyOf, h]

/-! The key wait (44_keyboard_timers_random.md R224, 10_state.md R35, R38). -/

theorem exec_keyWait {w : Wait} (hw : s.wait = w) : exec (.ldVxK x) s = .next (s.keyAwaited x w) :=
  hw ▸ execLdVxK_eq x s

/-- The key consumed stands in Vx. -/
theorem State.reg_keyAwaited_keyPressed (s : State) (x k : Nibble) : ((s.keyAwaited x (.keyPressed k)).reg x).toNat = k.toNat := by
  rw [State.keyAwaited, State.next_reg, State.reg_setReg_same, BitVec.toNat_setWidth_of_le (by decide)]

/-- The engine, whenever it moves, runs LD Vx, K: said of cells that neither the wait nor the key input changes. -/
def KeyWaitAtPc (s : State) (x : Nibble) : Prop :=
  s.halt = none ∧ s.batch = .idle ∧ s.pc.toNat ≤ 4094 ∧ decodeWord s.params.freezeWord (wordAtPc s) = .ok (.ldVxK x)

/-- The machine after a step of the wait, by `WAIT` and the events still to come. -/
def State.awaiting (s : State) (w : Wait) (events : List HostEvent) : State :=
  { s with wait := w, signal := none, inputs := events }

/-- The engine's step at an LD Vx, K is the arm that `WAIT` selects. -/
theorem step_keyWait {w : Wait} {rest : List HostEvent} (h : KeyWaitAtPc s x) (hw : s.wait = w) (hin : s.inputs = .advance :: rest) :
    step s = .next ((s.awaiting w rest).keyAwaited x w) := by
  subst hw
  obtain ⟨hhalt, hbatch, hpc, hd⟩ := h
  obtain ⟨-, hstep⟩ := stepRunsDecodedInstruction { s with inputs := rest } _ hhalt hpc hd
  exact (hstep s (.inr ⟨rest, hin, rfl⟩) hbatch).trans (exec_keyWait rfl)

/-- Any number of spinning steps only use up their events. -/
theorem run_spins (h : KeyWaitAtPc s x) (rest : List HostEvent) (m j : Nat) :
    Sys2Proof.core.run (m + j) (s.awaiting .waiting (List.replicate m .advance ++ rest)) =
      Sys2Proof.core.run j (s.awaiting .waiting rest) := by
  induction m with
  | zero => rw [Nat.zero_add]; rfl
  | succ m ih =>
    rw [Nat.add_right_comm]
    exact (run_succ (m + j) (step_keyWait (s := s.awaiting .waiting (.advance :: _)) h rfl rfl)).trans ih

/-- After the arming step and m spinning ones the machine waits for the events after them. -/
theorem run_arms_and_spins {m : Nat} {rest : List HostEvent} (h : KeyWaitAtPc s x) (hw : s.wait = .noWait)
    (hin : s.inputs = List.replicate (m + 1) .advance ++ rest) (j : Nat) :
    Sys2Proof.core.run (m + 1 + j) s = Sys2Proof.core.run j (s.awaiting .waiting rest) := by
  rw [Nat.add_right_comm]
  exact (run_succ (m + j) (step_keyWait h hw hin)).trans (run_spins h rest m j)

/-- The press of a key during the wait. -/
theorem step_press {k : Nat} (hk : k < 16) (s : State) (rest : List HostEvent) :
    step (s.awaiting .waiting (.toggleKey k true :: rest)) =
      .next (State.awaiting { s with keys := s.keys.set k true hk } (.keyPressed (BitVec.ofNat 4 k)) rest) :=
  (step_of_input (e := .toggleKey k true) rfl).trans (toggleKey_of_lt hk true)

/-- The press and one more step end the wait. -/
theorem run_press {k : Nat} (h : KeyWaitAtPc s x) (hk : k < 16) :
    Sys2Proof.core.run 2 (s.awaiting .waiting [.toggleKey k true, .advance]) =
      .next ((State.awaiting { s with keys := s.keys.set k true hk } (.keyPressed (BitVec.ofNat 4 k)) []).keyAwaited x
        (.keyPressed (BitVec.ofNat 4 k))) :=
  (run_succ 1 (step_press hk s [.advance])).trans (run_succ 0 (step_keyWait h rfl rfl))

/-! The drawn byte (44_keyboard_timers_random.md R232). -/

theorem State.drawByte_constant {c : Byte} (h : s.rndSource = .constant c) :
    s.drawByte.1 = c ∧ s.drawByte.2.rndSource = .constant c := by
  simp [State.drawByte, h]

theorem State.drawByte_script {c : Byte} {cs : List Byte} (h : s.rndSource = .script (c :: cs)) :
    s.drawByte.1 = c ∧ s.drawByte.2.rndSource = .script cs := by
  simp [State.drawByte, h]

/-- A free source, and a list that is used up, stay as they are. -/
theorem State.drawByte_free (h : s.rndSource = .free ∨ s.rndSource = .script []) : s.drawByte.2.rndSource = s.rndSource := by
  obtain h | h := h <;> simp [State.drawByte, h]

end

/-- Settles O50: the arming step and the spinning ones leave a waiting machine with fewer events to come, and the press and one more step
end the wait. -/
theorem keyWaitCompletesAfterPress : Obligations.KeyWaitCompletesAfterPress := by
  intro s x k n hhalt hbatch hpc hwait hk hd hin
  have hkey : KeyWaitAtPc s x := ⟨hhalt, hbatch, hpc, hd⟩
  refine ⟨fun m hm => ?spins, ⟨_, (run_arms_and_spins hkey hwait hin 2).trans (run_press hkey hk), ?reg, rfl, rfl, ?keys, rfl⟩⟩
  case spins =>
    have hsplit : n + 1 = (m + 1) + (n - m) := by omega
    rw [hsplit, List.replicate_add, List.append_assoc] at hin
    exact ⟨_, run_arms_and_spins hkey hwait hin 0, rfl, rfl, rfl⟩
  case reg => rw [State.reg_keyAwaited_keyPressed, BitVec.toNat_ofNat, Nat.mod_eq_of_lt hk]
  case keys => simp [State.keyAwaited, State.awaiting]

/-- Settles O48: a value that is a key makes the skip depend on that key, one way or the other; a larger value is the instruction's own
fault. -/
theorem keySkips : Obligations.KeySkips := by
  intro s x
  refine ⟨fun h => ?skips, fun h => ⟨exec_of_fault (if_pos h), exec_of_fault (if_pos h)⟩⟩
  have hkey : keyFault s x = none := if_neg (by omega)
  obtain ⟨t, hsknp, hframe, hpc⟩ := exec_skipped (exec_of_noFault (i := .sknp x) hkey)
  rw [← keyOf_eq h]
  refine ⟨exec_skipped (exec_of_noFault hkey), t, hsknp, hframe, ?_⟩
  rw [hpc]
  cases keyOf s x <;> rfl

/-- Settles O49: the arm that `WAIT` selects. -/
theorem keyWaitThreeArms : Obligations.KeyWaitThreeArms := by
  intro fw s x
  exact ⟨decodeWord_encode (i := .ldVxK x) rfl, exec_keyWait, exec_keyWait,
    fun k hw => ⟨_, exec_keyWait hw, rfl, s.reg_keyAwaited_keyPressed x k, fun r hr => State.reg_keyAwaited_other hr _⟩⟩

/-- Settles O51: one register write, or one write of a timer. -/
theorem timerMoves : Obligations.TimerMoves := by
  intro s x
  exact ⟨⟨_, rfl, rfl, rfl, s.reg_setReg_same x s.dt, fun r hr => State.reg_setReg_other hr s.dt⟩, rfl, rfl⟩

/-- Settles O52: one draw, and one register write, of the drawn byte under the mask. -/
theorem rndMasksOneDrawnByte : Obligations.RndMasksOneDrawnByte := by
  intro s x kk
  have hreg : (effect (.rnd x kk) s).reg x = s.drawByte.1 &&& kk := State.reg_setReg_same _ x _
  refine ⟨effect (.rnd x kk) s, s.drawByte.1, rfl, hreg, fun r hr => ?others, ?frame, fun c => State.drawByte_constant,
    fun c cs => State.drawByte_script, State.drawByte_free, fun hzero => ?zero⟩
  case others => exact (State.reg_setReg_other hr _).trans (s.drawByte_reg r)
  case frame =>
    simp only [effect]
    rw [State.drawByte_frame]
    rfl
  case zero => rw [hreg, hzero]; exact BitVec.and_zero

end Sys2Proof.Machine
end

section
/-! PROOFS. Faults, ticks, clocks and the calls of the host (60_exceptions.md R240, R241, R268 to R276). -/

open Sys2Proof

namespace Sys2Proof.Machine

section
variable {s t : State}

/-! What an engine step and a step of a batch leave recorded (60_exceptions.md R241, R274). -/

/-- An engine step records nothing, or records a fault and changes nothing else but the last signal's record. -/
theorem executeNext_halt_none_or_faults (hx : executeNext s = .next t) :
    t.halt = none ∨ ∃ f, t = { s.clearSignal with halt := some f } := by
  obtain ⟨hhalt, ⟨f, -, rfl⟩ | ⟨op, -, -, -, rfl⟩ | ⟨op, i, -, -, hexec⟩⟩ := executeNext_cases hx
  · exact .inr ⟨f, rfl⟩
  · exact .inr ⟨_, rfl⟩
  · exact (exec_next_cases hexec).imp_left fun h => h.trans hhalt

theorem endBatch_continues (hh : t.halt = none) (hs : t.signal = none) : endBatch (.next t) = .next t := if_pos ⟨hh, hs⟩

theorem endBatch_stops (h : t.halt ≠ none ∨ t.signal ≠ none) : endBatch (.next t) = .next { t with batch := .idle } :=
  if_neg fun ⟨hh, hs⟩ => h.elim (· hh) (· hs)

/-- The record after an instruction is its own fault's, when none was recorded before it. -/
theorem outcomeOf_effect_halt {i : Instr} {fault : Option CoreFault} (h : s.halt = none) :
    (outcomeOf s fault (effect i s)).halt = fault := by
  cases fault with
  | none =>
    show (effect i s).halt = none
    rw [effect_frame]
    exact h
  | some f => rfl

/-! The clocks (60_exceptions.md R272, R273, R276). -/

theorem due_of_lt {c : Clock} {now : Nat} (h : 0 < c.period) (hnow : now < c.last + c.period) : due c now = (0, c) := by
  have hcount : wholePeriods c now = 0 := by
    rw [wholePeriods, if_neg h.ne', Nat.div_eq_of_lt (by omega)]
  exact if_neg (by omega)

theorem due_of_le {c : Clock} {now : Nat} (h : 0 < c.period) (hnow : c.last + c.period ≤ now) :
    due c now = ((now - c.last) / c.period, { c with last := now }) := by
  have hcount : wholePeriods c now = (now - c.last) / c.period := if_neg h.ne'
  rw [due, hcount]
  exact if_pos (Nat.div_pos (by omega) h)

/-- The due count is a division, at no whole period too. -/
theorem due_count {c : Clock} (h : 0 < c.period) (now : Nat) : (due c now).1 = (now - c.last) / c.period := by
  by_cases hnow : now < c.last + c.period
  · rw [due_of_lt h hnow, Nat.div_eq_of_lt (by omega)]
  · rw [due_of_le h (by omega)]

theorem setClock_of_pos {hz : Nat} (h : 1 ≤ hz) :
    setClock hz s =
      .next { s with clockHz := hz, ratio := hz / 60, cpu := { period := 1000000000 / hz, last := s.cpu.last } } :=
  if_neg (by omega)

theorem setClock_zero : setClock 0 s = .refused .clockRateBelow1 := rfl

/-! The duties of the host's calls (60_exceptions.md R268). -/

theorem driveBy_callInProgress (mode : Driving) (call : Result) (hh : s.halt = none) (hb : s.batch ≠ .idle) :
    driveBy mode s call = .refused .callInProgress := by
  simp only [driveBy, hh, if_pos hb]

theorem driveBy_mixed {mode other : Driving} (call : Result) (hh : s.halt = none) (hb : s.batch = .idle)
    (hd : s.driving = some other) (hne : other ≠ mode) : driveBy mode s call = .refused .mixedDriving := by
  simp [driveBy, hh, hb, hd, hne]

/-- There are two driving modes only. -/
theorem Driving.eq_of_ne {d other mode : Driving} (hd : d ≠ mode) (ho : other ≠ mode) : d = other := by
  cases mode <;> cases d <;> cases other <;> simp_all

/-- With the duties kept, the call is served. -/
theorem driveBy_served {mode other : Driving} (call : Result) (hh : s.halt = none) (hb : s.batch = .idle)
    (hne : other ≠ mode) (hd : s.driving ≠ some other) : driveBy mode s call = call := by
  obtain ⟨f, hf, -⟩ | ⟨-, hbusy, -⟩ | ⟨-, -, ⟨d, hused, hdm⟩, -⟩ | ⟨-, -, -, hcall⟩ := driveBy_eq mode s call
  · cases hh.symm.trans hf
  · exact absurd hb hbusy
  · exact absurd (Driving.eq_of_ne hdm hne ▸ hused) hd
  · exact hcall

/-- The start of `cycle()` at a time that has not gone back. -/
theorem callCycle_served {now : Nat} (hh : s.halt = none) (hb : s.batch = .idle) (hd : s.driving ≠ some .externallyTimed)
    (hnow : s.hostNow ≤ now) (htmr : s.tmr.last ≤ now) (hcpu : s.cpu.last ≤ now) :
    callCycle now s = .next { s with
      tmr := (due s.tmr now).2
      batch := .cycleTicks now (due s.tmr now).1
      driving := some .selfTimed
      hostNow := now } :=
  (driveBy_served _ hh hb (by decide) hd).trans (if_neg (by omega))

/-- `cycle()` at a time that has gone back. -/
theorem callCycle_backwards {now : Nat} (hh : s.halt = none) (hb : s.batch = .idle) (hd : s.driving ≠ some .externallyTimed)
    (hback : now < s.hostNow ∨ now < s.tmr.last ∨ now < s.cpu.last) : callCycle now s = .refused .clockBackwards :=
  (driveBy_served _ hh hb (by decide) hd).trans (if_pos hback)

/-! The ticks of a `cycle()` call (60_exceptions.md R270, R274). -/

/-- The state after n ticks. -/
def State.ticked (s : State) (n : Nat) : State := { s with dt := countDown^[n] s.dt, st := countDown^[n] s.st }

theorem countDown_iterate_toNat (n : Nat) (b : Byte) : (countDown^[n] b).toNat = b.toNat - n := by
  induction n generalizing b with
  | zero => rfl
  | succ n ih => rw [Function.iterate_succ_apply, ih, countDown_toNat, Nat.sub_sub, Nat.add_comm]

/-- The moves of a `cycle()` call after its start: the ticks that are due, then the question to the CPU clock. -/
theorem run_cycleTicks {now n : Nat} (hin : s.inputs = []) (hb : s.batch = .cycleTicks now n) :
    Sys2Proof.core.run (n + 1) s = .next (askCpuClock now (s.ticked n)) := by
  induction n generalizing s with
  | zero => exact run_succ 0 ((step_of_no_input hin).trans (engineMove_lastTick hb))
  | succ n ih =>
    have htick := (step_of_no_input hin).trans (engineMove_tick hb)
    exact (run_succ (n + 1) htick).trans (ih hin rfl)

end

/-- Settles O10: an engine step that leaves a record has changed nothing but the two records. -/
theorem faultsArePrecise : Obligations.FaultsArePrecise := by
  intro s t f _ hx hf
  obtain hnone | ⟨g, rfl⟩ := executeNext_halt_none_or_faults hx
  · cases hnone.symm.trans hf
  · cases hf; rfl

/-- Settles O55: below one period nothing is due; from one period on the count is the quotient, whose bounds are those of division. -/
theorem dueRebasesToNow : Obligations.DueRebasesToNow := by
  intro c now hperiod _
  refine ⟨due_of_lt hperiod, fun hnow => ?_⟩
  rw [due_of_le hperiod hnow]
  exact ⟨rfl, Nat.div_mul_le_self _ _, (Nat.lt_mul_div_succ _ hperiod).trans_eq (Nat.mul_comm _ _)⟩

/-- Settles O57: the call's first move counts the due ticks, each of them is one move, and the last move asks the CPU clock. -/
theorem cycleTicksThenSteps : Obligations.CycleTicksThenSteps := by
  intro s now hh
  refine ⟨fun hin hb hd htp hcp hnow htmr hcpu => ?served, fun rest hin hb hd hback => ?backwards, fun rest hin hb => ?nested⟩
  case served =>
    have hcall := (step_of_input hin).trans (callCycle_served (s := { s with inputs := [] }) hh hb hd hnow htmr hcpu)
    simp only [due_count htp] at hcall
    refine ⟨_, (run_succ _ hcall).trans (run_cycleTicks rfl rfl), countDown_iterate_toNat _ _, countDown_iterate_toNat _ _,
      ?_, rfl, rfl, rfl⟩
    exact congrArg Batch.steps (due_count hcp now)
  case backwards => exact (step_of_input hin).trans (callCycle_backwards (s := { s with inputs := rest }) hh hb hd hback)
  case nested => exact (step_of_input hin).trans (driveBy_callInProgress _ _ hh hb)

/-- Settles O6: on the engine's turn the move of a batch is one engine step, ended by what it records, or the return. -/
theorem batchStepStopsAtFaultOrSignal : Obligations.BatchStepStopsAtFaultOrSignal := by
  intro s u hturn
  rw [step_of_engineTurn hturn]
  refine ⟨fun t n hb hx => ?_, engineMove_return⟩
  rw [engineMove_step hb, hx]
  exact ⟨endBatch_continues, endBatch_stops⟩

/-- Settles O9: an instruction answers its effect, which records nothing, or the record of its own fault. -/
theorem execRecordsExactlyOwnFault : Obligations.ExecRecordsExactlyOwnFault :=
  fun i s h => ⟨_, exec_eq i s, outcomeOf_effect_halt h⟩

/-- Settles O53: the tick counts both timers down. -/
theorem tickCountsDownToZero : Obligations.TickCountsDownToZero :=
  fun _ _ hin => ⟨_, step_of_input hin, rfl, countDown_toNat _, countDown_toNat _⟩

/-- Settles O56: an increment is a set of the sum, and a sum below 1 is a set of 0. -/
theorem setClockSetsAllThree : Obligations.SetClockSetsAllThree := by
  intro s rest
  refine ⟨fun hz hin => ?set, fun d hin => ?increment⟩
  case set =>
    rw [step_of_input hin]
    exact ⟨setClock_of_pos, fun hzero => hzero ▸ setClock_zero⟩
  case increment =>
    have hset : step s = setClock (s.clockHz + d).toNat { s with inputs := rest } := step_of_input hin
    rw [hset]
    refine ⟨fun hz hsum hpos => ?_, fun hlow => ?_⟩
    · rw [← hsum, Int.toNat_natCast]
      exact setClock_of_pos hpos
    · rw [Int.toNat_of_nonpos (by omega)]
      exact setClock_zero

/-- Settles O58: the call is one move, or is refused for the duty it breaks. -/
theorem cycle60HzTicksOnce : Obligations.Cycle60HzTicksOnce := by
  intro s rest hh
  refine ⟨fun hin hb hd => ?served, fun hin hb hd => ?mixed60Hz, fun now hin hb hd => ?mixedCycle, fun hin hb => ?nested⟩
  case served =>
    exact ⟨_, (step_of_input hin).trans (driveBy_served _ hh hb (by decide) hd), countDown_toNat _, countDown_toNat _, rfl, rfl⟩
  case mixed60Hz => exact (step_of_input hin).trans (driveBy_mixed _ hh hb hd (by decide))
  case mixedCycle => exact (step_of_input hin).trans (driveBy_mixed _ hh hb hd (by decide))
  case nested => exact (step_of_input hin).trans (driveBy_callInProgress _ _ hh hb)

end Sys2Proof.Machine
end

section
/-! PROOFS. The warm reset (70_reset_and_hazards.md R295). -/

open Sys2Proof

namespace Sys2Proof.Machine

@[simp] theorem warmReset_reg (s : State) (r : Nibble) : (warmReset s).reg r = 0 := by simp [warmReset, State.reg]

theorem warmReset_fb (s : State) (k : Fin 8) : (warmReset s).fb[k] = 0 := by simp [warmReset]

/-- Settles O59: the move is `warmReset` of the state without the event, whose every cell is a constant or the cell before. -/
theorem warmResetKeepsMemoryAndKeys : Obligations.WarmResetKeepsMemoryAndKeys := by
  intro s rest hin
  refine ⟨warmReset { s with inputs := rest }, step_of_input hin, warmReset_reg _, ?i, ?pc, ?sp, warmReset_fb _, ?dt, ?st, ?wait,
    ?hires, Display.blank_wf false, Display.pix_blank false, ?halt, ?kept⟩
  case i | pc | sp | dt | st | wait | hires | halt => rfl
  case kept => exact ⟨rfl, rfl, rfl, rfl, rfl, rfl, rfl, rfl, rfl, rfl, rfl, rfl, rfl, rfl, rfl⟩

end Sys2Proof.Machine
end
